-- ==== Sys2Proof/Word.lean ====
section
/-! DEFINITION. The words of the block: bytes and 16-bit fields (spec/00_scope.md section 5.1). -/
namespace Sys2Proof

/-- A byte: 8 bits, bit 7 the most significant (00 section 5.1). -/
abbrev Byte := BitVec 8

/-- A 16-bit field or register. An `int16` is read with `BitVec.toInt`, a `uint16` with `BitVec.toNat` (00 section 5.1). -/
abbrev Word := BitVec 16

end Sys2Proof
end

