-- ==== Sys2Proof/Config.lean ====
section
/-! DEFINITION. What is fixed when the block is built (spec/00_scope.md rule R3), left OPEN by the spec and so given here by
constants with no body, and the free values: what the spec calls unspecified or `any value`
(spec/93_implementation_defined.md), constants with no body as well. -/
namespace Sys2Proof

/-- The constraints of 00 R3 on `WIDTH`, `HEIGHT`, `CAPACITY`, `SLOT_SIZE`. -/
abbrev LegalParams (w h n s : Nat) : Prop :=
  w % 8 = 0 ∧ 8 ≤ w ∧ w ≤ 32760 ∧ 1 ≤ h ∧ h ≤ 32767 ∧ n ≤ 65535 ∧ s ≤ 255 ∧ w / 8 * h ≤ 65536

/-- The parameters of a block (00 R3). They carry the proof of their constraints, so that a configuration the spec refuses
(93 U10) cannot be written down. Log entry 1. -/
structure Params where
  /-- `WIDTH`, W: device width in pixels. -/
  width : Nat
  /-- `HEIGHT`, H: device height in pixels. -/
  height : Nat
  /-- `CAPACITY`, N: number of command slots. -/
  capacity : Nat
  /-- `SLOT_SIZE`, S: payload bytes one slot can hold. -/
  slotSize : Nat
  /-- The constraints of 00 R3. -/
  legal : LegalParams width height capacity slotSize := by decide
  deriving DecidableEq, Repr

namespace Config

/-- Which width the block was built with: OPEN (00 R3, D1). A free value; log entry 1. -/
opaque openWidth : Nat
/-- Which height the block was built with: OPEN (00 R3, D1). A free value; log entry 1. -/
opaque openHeight : Nat
/-- Which capacity the block was built with: OPEN (00 R3, D2). A free value; log entry 1. -/
opaque openCapacity : Nat
/-- Which slot size the block was built with: OPEN (00 R3, D3). A free value; log entry 1. -/
opaque openSlotSize : Nat

/-- An unspecified byte, by draw: 93 U1 and U2, 10 R13. A free value; log entry 6. -/
opaque freeByte : Nat → Byte
/-- An unspecified counter, by draw: 10 R14. A free value; log entry 6. It is in no range, for the model gives the counters no
width: DESIGN CHOICE, log entry 29. -/
opaque freeCount : Nat → Nat

/-- `WIDTH` in bytes, 1 to 4095, every value possible. -/
def widthBytes : Nat := openWidth % 4095 + 1

/-- The largest `HEIGHT` the address constraint of 00 R3 leaves for a width of `wb` bytes. -/
def maxHeight (wb : Nat) : Nat := min 32767 (65536 / wb)

/-- `HEIGHT`, 1 to the largest legal one, every value possible. -/
def heightRows : Nat := openHeight % maxHeight widthBytes + 1

theorem widthBytes_bounds : 1 ≤ widthBytes ∧ widthBytes ≤ 4095 := by
  have := Nat.mod_lt openWidth (show 0 < 4095 by decide)
  unfold widthBytes; omega

theorem maxHeight_pos {wb : Nat} (h1 : 1 ≤ wb) (h2 : wb ≤ 4095) : 0 < maxHeight wb := by
  have : 1 ≤ 65536 / wb := (Nat.one_le_div_iff (by omega)).mpr (by omega)
  unfold maxHeight; omega

theorem heightRows_bounds : 1 ≤ heightRows ∧ heightRows ≤ 32767 ∧ widthBytes * heightRows ≤ 65536 := by
  obtain ⟨h1, h2⟩ := widthBytes_bounds
  have hlt := Nat.mod_lt openHeight (maxHeight_pos h1 h2)
  have hle : heightRows ≤ maxHeight widthBytes := by unfold heightRows; omega
  have hq : heightRows ≤ 65536 / widthBytes := le_trans hle (Nat.min_le_right _ _)
  have hm : widthBytes * heightRows ≤ 65536 := by
    rw [Nat.mul_comm]; exact (Nat.le_div_iff_mul_le (by omega)).mp hq
  have hc : heightRows ≤ 32767 := le_trans hle (Nat.min_le_left _ _)
  refine ⟨by unfold heightRows; omega, hc, hm⟩

/-- The block's parameters: any legal configuration, and no proof can tell which (00 R3, 93 U10). Log entry 1. -/
def params : Params where
  width := 8 * widthBytes
  height := heightRows
  capacity := openCapacity % 65536
  slotSize := openSlotSize % 256
  legal := by
    obtain ⟨h1, h2⟩ := widthBytes_bounds
    obtain ⟨h3, h4, h5⟩ := heightRows_bounds
    have hn := Nat.mod_lt openCapacity (show 0 < 65536 by decide)
    have hs := Nat.mod_lt openSlotSize (show 0 < 256 by decide)
    have hd : 8 * widthBytes / 8 = widthBytes := Nat.mul_div_cancel_left _ (by decide)
    refine ⟨by omega, by omega, by omega, h3, h4, by omega, by omega, ?_⟩
    rw [hd]; exact h5

end Config

end Sys2Proof
end

