-- ==== Sys2Proof/Syntax.lean ====
section
/-! DEFINITION. The commands of the block: one constructor per row of spec/opcode_table.json. The eight drawing commands are
the closed sum type of spec/30_encoding.md rule R63 (an `int16` or `uint16` field is held as its 16 bits), the four host
commands those of rule R75. -/
namespace Sys2Proof

/-- A command of the block (30 R63, R75). -/
inductive Instr where
  /-- `POINT px, py` (41 R101; format P, 30 R64). -/
  | point (px py : Word)
  /-- `LINE x0, y0, x1, y1` (41 R104; format L, 30 R65). -/
  | line (x0 y0 x1 y1 : Word)
  /-- `RECT.F x, y, w, h` (41 R110; format R with FLAGS 0x01, 30 R66). -/
  | rectF (x y w h : Word)
  /-- `RECT.O x, y, w, h` (41 R112; format R with FLAGS 0x00, 30 R66). -/
  | rectO (x y w h : Word)
  /-- `CIRCLE.F cx, cy, r` (41 R117; format C with FLAGS 0x01, 30 R67). -/
  | circleF (cx cy r : Word)
  /-- `CIRCLE.O cx, cy, r` (41 R118; format C with FLAGS 0x00, 30 R67). -/
  | circleO (cx cy r : Word)
  /-- `TEXT x, y, STR, FNT, LEN, SCALE` (42 R130; format T, 30 R68). -/
  | text (x y str fnt len : Word) (scale : Byte)
  /-- `RAW BUF` (41 R122; format B, 30 R69). -/
  | raw (buf : Word)
  /-- `PUSH` (43 R151; host command code 0x01, 30 R75). -/
  | push
  /-- `POP` (43 R153; host command code 0x02, 30 R75). -/
  | pop
  /-- `PROCESS` (43 R156; host command code 0x03, 30 R75). -/
  | process
  /-- `RENDER` (44 R170; host command code 0x04, 30 R75). -/
  | render
  deriving DecidableEq, Repr

/-- A drawing command, one a slot can hold (30 R60), as against a host command. -/
def Instr.isDrawing : Instr → Bool
  | .point _ _ | .line _ _ _ _ | .rectF _ _ _ _ | .rectO _ _ _ _ | .circleF _ _ _ | .circleO _ _ _
  | .text _ _ _ _ _ _ | .raw _ => true
  | .push | .pop | .process | .render => false

/-- A clear-only command: every drawing command but `RAW` (41 R100). -/
def Instr.isClearOnly : Instr → Bool
  | .point _ _ | .line _ _ _ _ | .rectF _ _ _ _ | .rectO _ _ _ _ | .circleF _ _ _ | .circleO _ _ _
  | .text _ _ _ _ _ _ => true
  | .raw _ | .push | .pop | .process | .render => false

end Sys2Proof
end

