-- ==== Sys2Proof/Machine/State.lean ====
section
/-! DEFINITION. The state of the block as plain data (spec/10_state.md), the reasons a step can stop, and the state after reset
(rule R28). -/
namespace Sys2Proof.Machine

/-- `STATUS.CAUSE` (10 R17, 60 R191). -/
inductive Cause where
  /-- Code 0: the most recent PUSH was accepted, or there was none since reset. -/
  | none
  /-- Code 1: `SIZE = N`. -/
  | full
  /-- Code 2: the command's footprint exceeds the slot size. -/
  | tooBig
  /-- Code 3: the staged image is reserved. -/
  | rsvd
  deriving DecidableEq, Repr

/-- One command slot: its TAG and its payload of `S` bytes (10 R11, R30). -/
structure Slot where
  tag : Byte
  payload : List Byte
  deriving DecidableEq, Repr

/-- A move of the environment (00 R2): HOST's accesses to the register file, HOST's writes to the XMEM it owns, and what SINK
and the reset input do. Log entries 11, 12, 14, 19. -/
inductive EnvMove where
  /-- HOST writes a register, by register number (10 R20). -/
  | write (reg : Nat) (value : Word)
  /-- HOST reads a register, by register number (10 R20). -/
  | read (reg : Nat)
  /-- HOST makes no access: ENGINE moves. -/
  | engine
  /-- HOST puts a byte into XMEM (10 R25, 93 U5). -/
  | hostXmem (addr : Word) (value : Byte)
  /-- SINK does not take a byte during this step (70 R220). -/
  | sinkStall
  /-- The reset event (70 R210). -/
  | reset
  deriving DecidableEq, Repr

/-- The state of the block (10 R10), the environment's part of it, and the model's histories. -/
structure State where
  /-- The read-only registers `CAPACITY`, `SLOTSZ`, `WIDTH`, `HEIGHT` (10 R21), which hold the parameters of 00 R3. -/
  params : Params
  /-- The slot file `SLOT` with its tag array (10 R11, R30), by slot index in canonical form (see `Machine/Sparse.lean`); a slot
  not listed holds `blankSlot`. -/
  slots : List (Nat × Slot)
  /-- `SIZE` (10 R12). -/
  size : Word
  /-- The working byte `WB` (10 R13). -/
  wb : Byte
  /-- The sweep position (10 R14): device row `Y`. Rule R14 leaves the widths of the four counters to whatever holds their ranges;
  that `y`, `xg`, `ci` and `bi` have no width at all is the model's. DESIGN CHOICE, log entry 29. -/
  y : Nat
  /-- The sweep position: byte column `XG`; its width as for `y` (log entry 29). -/
  xg : Nat
  /-- The sweep position: command index `CI`; it is `SIZE` once every command has been folded into the byte (log entry 10). Its
  width as for `y` (log entry 29). -/
  ci : Nat
  /-- The sweep position: bit position `BI`; its width as for `y` (log entry 29). -/
  bi : Nat
  /-- `ORIENT` (10 R15). -/
  orient : BitVec 2
  /-- `ORIENT_ACT` (10 R16). -/
  orientAct : BitVec 2
  /-- `STATUS.BUSY` (10 R17). -/
  busy : Bool
  /-- `STATUS.REJ` (10 R17). -/
  rej : Bool
  /-- `STATUS.CAUSE` (10 R17). -/
  cause : Cause
  /-- `STAGE_TAG` (10 R18). -/
  stageTag : Byte
  /-- `STAGE[0] .. STAGE[10]` (10 R18). -/
  stage : Vector Byte 11
  /-- `P_IDX` (10 R19). -/
  pIdx : Word
  /-- `P_WB` (10 R19). -/
  pWb : Byte
  /-- `P_X` (10 R19), an `int16`. -/
  pX : Word
  /-- `P_Y` (10 R19), an `int16`. -/
  pY : Word
  /-- `P_OUT` (10 R19). -/
  pOut : Byte
  /-- `OUT`: the bytes emitted to SINK since reset, in emission order (10 R24). -/
  out : List Byte
  /-- XMEM, the memory HOST owns (10 R25), in canonical form; a byte not listed is `xmemDefault`. -/
  xmem : List Host.Cell
  /-- The moves the environment still has to make, oldest first. The model's own field; log entry 11. -/
  env : List EnvMove
  /-- The register reads since reset, number and value, oldest first (00 R8). The model's own field; log entry 13. -/
  reads : List (Nat × Word)
  /-- How many free values have been drawn. The model's own field; log entry 6. -/
  draws : Nat
  deriving DecidableEq, Repr

/-- Why the machine stops although the command has a meaning. -/
inductive Fault where
  /-- A glyph lookup outside the font's range (42 R139, 93 U4). Raised by TEXT, in a pass or under PROCESS. Safe. -/
  | glyphOutsideFont
  /-- HOST changes XMEM while a pass is running (70 R214, 93 U5). Raised by the environment's move. Safe. -/
  | xmemChangedDuringPass
  deriving DecidableEq, Repr

/-- Why a step has no meaning. -/
inductive Refusal where
  /-- The instruction has no meaning yet. Raised by an arm of `exec`. Safe. -/
  | notModelled (mnemonic : String)
  /-- A slot below SIZE whose image does not decode. No run reaches such a state (10 R27, 43 R158). Raised by the fetch of a
  command and by PROCESS. Safe; log entry 15. -/
  | undecodableSlot
  deriving DecidableEq, Repr

/-- What a slot nothing has written holds: the spec leaves it unspecified and no rule reads it (10 R28). DESIGN CHOICE, log
entry 3. -/
abbrev blankSlot (p : Params) : Slot := { tag := 0, payload := List.replicate p.slotSize 0 }

/-- What an XMEM byte reads as that HOST has not placed (10 R25 leaves XMEM's contents to HOST). DESIGN CHOICE, log entry 4. -/
abbrev xmemDefault : Byte := 0

/-- The state after reset (10 R28), before HOST has made any move. Log entry 2 names the values of the registers for which
the spec states none: `wb`, `y`, `xg`, `ci`, `bi`, `stageTag`, `stage`, `pIdx`, `pWb`, `pX`, `pY`, `pOut`. -/
def State.reset : State where
  params := Config.params
  slots := []
  size := 0
  wb := 0
  y := 0
  xg := 0
  ci := 0
  bi := 0
  orient := 0
  orientAct := 0
  busy := false
  rej := false
  cause := .none
  stageTag := 0
  stage := Vector.replicate 11 0
  pIdx := 0
  pWb := 0
  pX := 0
  pY := 0
  pOut := 0
  out := []
  xmem := []
  env := []
  reads := []
  draws := 0

end Sys2Proof.Machine
end

