-- ==== Sys2Proof/Machine/Flags.lean ====
section
/-! DEFINITION. The flags of the block and the STATUS register they are read through (spec/10_state.md rules R17, R29,
spec/60_exceptions.md rule R191). There are no condition codes. -/
namespace Sys2Proof.Machine

/-- The code of a cause in STATUS bits 3:2 (10 R17, 60 R191). -/
def Cause.code : Cause → BitVec 2
  | .none => 0
  | .full => 1
  | .tooBig => 2
  | .rsvd => 3

/-- `STATUS` as HOST reads it: bits 7:4 zero, CAUSE in 3:2, REJ in 1, BUSY in 0 (10 R17). -/
def statusByte (s : State) : Byte := 0#4 ++ s.cause.code ++ BitVec.ofBool s.rej ++ BitVec.ofBool s.busy

/-- REJ and CAUSE as an accepted PUSH leaves them (43 R151). -/
def setAccepted (s : State) : State := { s with rej := false, cause := .none }

/-- REJ and CAUSE as a rejected PUSH leaves them (60 R190). -/
def setRejected (c : Cause) (s : State) : State := { s with rej := true, cause := c }

end Sys2Proof.Machine
end

