-- ==== Sys2Proof/WellFormed.lean ====
section
/-! DEFINITION. Which terms of `Instr` are commands of the block. Every field value is legal (spec/30_encoding.md rule R73)
but one: a `TEXT` whose SCALE is 0 is a reserved image (rule R72). A reserved TAG and reserved FLAGS bits have no term. -/
namespace Sys2Proof

/-- `i` is a command of the block: its fields are not reserved (30 R72). -/
abbrev Instr.WellFormed : Instr → Prop
  | .text _ _ _ _ _ scale => scale ≠ 0
  | .point _ _ | .line _ _ _ _ | .rectF _ _ _ _ | .rectO _ _ _ _ | .circleF _ _ _ | .circleO _ _ _
  | .raw _ | .push | .pop | .process | .render => True

/-- `WellFormed` as a check that evaluates. -/
def Instr.wf : Instr → Bool
  | .text _ _ _ _ _ scale => scale != 0
  | .point _ _ | .line _ _ _ _ | .rectF _ _ _ _ | .rectO _ _ _ _ | .circleF _ _ _ | .circleO _ _ _
  | .raw _ | .push | .pop | .process | .render => true

theorem Instr.wf_iff (i : Instr) : i.wf = true ↔ i.WellFormed := by
  cases i <;> simp [Instr.wf, Instr.WellFormed]

end Sys2Proof
end

