-- ==== Sys2Proof/Decode.lean ====
section
/-! DEFINITION. The encodings of spec/30_encoding.md: the decoder of slot images (rules R61 to R72), the decoder of host
command codes (rules R75, R76), and after them the encoder. Both decoders are total and reject by name. -/
namespace Sys2Proof

/-- Why bytes are no command. -/
inductive DecodeError where
  /-- The TAG is 0x00 or in 0x07 .. 0xFF (30 R72). -/
  | reservedTag
  /-- Bits 7:1 of a Rectangle's or Circle's FLAGS are not 0 (30 R66, R67, R72). -/
  | reservedFlags
  /-- A Text image's SCALE is 0 (30 R68, R72). -/
  | zeroScale
  /-- A byte written to `CMD` is 0x00 or in 0x05 .. 0xFF (30 R76). -/
  | reservedCode
  /-- There are fewer bytes than the TAG's footprint needs (30 R62). -/
  | truncated
  deriving DecidableEq, Repr

/-- `{hi, lo}`: the 16-bit field of two bytes stored little-endian, the lower offset first (00 section 5.1, 20 R41). -/
def le16 (lo hi : Byte) : Word := hi ++ lo

/-- The footprint of a TAG: how many payload bytes its variant has (30 R61, R62); 0 for a reserved TAG, which has none. -/
def footprint (tag : Byte) : Nat :=
  match tag.toNat with
  | 1 => 4
  | 2 => 8
  | 3 => 9
  | 4 => 7
  | 5 => 11
  | 6 => 2
  | _ => 0

/-- `MAXFOOT` (00 R3, 30 R62). -/
def maxFoot : Nat := 11

/-- Format R by its FLAGS byte (30 R66): bit 0 is `filled`, bits 7:1 must be 0. -/
def rectByFlags (x y w h : Word) (flags : Byte) : Except DecodeError Instr :=
  if flags = 1 then .ok (.rectF x y w h) else if flags = 0 then .ok (.rectO x y w h) else .error .reservedFlags

/-- Format C by its FLAGS byte (30 R67): bit 0 is `filled`, bits 7:1 must be 0. -/
def circleByFlags (cx cy r : Word) (flags : Byte) : Except DecodeError Instr :=
  if flags = 1 then .ok (.circleF cx cy r) else if flags = 0 then .ok (.circleO cx cy r) else .error .reservedFlags

/-- Format T by its SCALE byte (30 R68): 0 is reserved. -/
def textByScale (x y str fnt len : Word) (scale : Byte) : Except DecodeError Instr :=
  if scale = 0 then .error .zeroScale else .ok (.text x y str fnt len scale)

/-- Format P (30 R64). -/
def decodePoint : List Byte → Except DecodeError Instr
  | a :: b :: c :: d :: _ => .ok (.point (le16 a b) (le16 c d))
  | _ => .error .truncated

/-- Format L (30 R65). -/
def decodeLine : List Byte → Except DecodeError Instr
  | a :: b :: c :: d :: e :: f :: g :: h :: _ => .ok (.line (le16 a b) (le16 c d) (le16 e f) (le16 g h))
  | _ => .error .truncated

/-- Format R (30 R66). -/
def decodeRect : List Byte → Except DecodeError Instr
  | a :: b :: c :: d :: e :: f :: g :: h :: flags :: _ =>
    rectByFlags (le16 a b) (le16 c d) (le16 e f) (le16 g h) flags
  | _ => .error .truncated

/-- Format C (30 R67). -/
def decodeCircle : List Byte → Except DecodeError Instr
  | a :: b :: c :: d :: e :: f :: flags :: _ => circleByFlags (le16 a b) (le16 c d) (le16 e f) flags
  | _ => .error .truncated

/-- Format T (30 R68). -/
def decodeText : List Byte → Except DecodeError Instr
  | a :: b :: c :: d :: e :: f :: g :: h :: i :: j :: scale :: _ =>
    textByScale (le16 a b) (le16 c d) (le16 e f) (le16 g h) (le16 i j) scale
  | _ => .error .truncated

/-- Format B (30 R69). -/
def decodeRaw : List Byte → Except DecodeError Instr
  | a :: b :: _ => .ok (.raw (le16 a b))
  | _ => .error .truncated

/-- `Decode(tag, payload)` (30 R63, R71): the format by the TAG, its fields from the first `footprint(tag)` payload bytes, the
bytes after them ignored; an error where the image is reserved (30 R72). -/
def decodeImage (tag : Byte) (payload : List Byte) : Except DecodeError Instr :=
  match tag.toNat with
  | 1 => decodePoint payload
  | 2 => decodeLine payload
  | 3 => decodeRect payload
  | 4 => decodeCircle payload
  | 5 => decodeText payload
  | 6 => decodeRaw payload
  | _ => .error .reservedTag

/-- The host command a byte written to `CMD` names (30 R71, R75); every other byte is reserved (30 R76). -/
def decodeCode (code : Byte) : Except DecodeError Instr :=
  match code.toNat with
  | 1 => .ok .push
  | 2 => .ok .pop
  | 3 => .ok .process
  | 4 => .ok .render
  | _ => .error .reservedCode

/-- Any bytes as a command: a single byte is a host command code, two or more are a slot image, TAG first (30 R60). An image
has at least 3 bytes, so the length alone tells the two apart. -/
def decodeBytes : List Byte → Except DecodeError Instr
  | [] => .error .truncated
  | [code] => decodeCode code
  | tag :: payload => decodeImage tag payload

/-- The low byte of a 16-bit field. -/
def loByte (w : Word) : Byte := w.setWidth 8

/-- The high byte of a 16-bit field. -/
def hiByte (w : Word) : Byte := (w >>> 8).setWidth 8

/-- A 16-bit field as it lies in an image, less significant byte first (30 section 2, 20 R41). -/
def fieldBytes (w : Word) : List Byte := [loByte w, hiByte w]

/-- The TAG of a drawing command (30 R61), the code of a host command (30 R75): the first byte of its encoding. -/
def leadByte : Instr → Byte
  | .point _ _ => 0x01
  | .line _ _ _ _ => 0x02
  | .rectF _ _ _ _ => 0x03
  | .rectO _ _ _ _ => 0x03
  | .circleF _ _ _ => 0x04
  | .circleO _ _ _ => 0x04
  | .text _ _ _ _ _ _ => 0x05
  | .raw _ => 0x06
  | .push => 0x01
  | .pop => 0x02
  | .process => 0x03
  | .render => 0x04

/-- The payload of a command (30 R64 to R69); a host command has none (30 R75). -/
def encodePayload : Instr → List Byte
  | .point px py => fieldBytes px ++ fieldBytes py
  | .line x0 y0 x1 y1 => fieldBytes x0 ++ fieldBytes y0 ++ fieldBytes x1 ++ fieldBytes y1
  | .rectF x y w h => fieldBytes x ++ fieldBytes y ++ fieldBytes w ++ fieldBytes h ++ [0x01]
  | .rectO x y w h => fieldBytes x ++ fieldBytes y ++ fieldBytes w ++ fieldBytes h ++ [0x00]
  | .circleF cx cy r => fieldBytes cx ++ fieldBytes cy ++ fieldBytes r ++ [0x01]
  | .circleO cx cy r => fieldBytes cx ++ fieldBytes cy ++ fieldBytes r ++ [0x00]
  | .text x y str fnt len scale =>
    fieldBytes x ++ fieldBytes y ++ fieldBytes str ++ fieldBytes fnt ++ fieldBytes len ++ [scale]
  | .raw buf => fieldBytes buf
  | .push | .pop | .process | .render => []

/-- The bytes of a command: a slot image, TAG first, or the one byte written to `CMD` (30 R60). -/
def encode (i : Instr) : List Byte := leadByte i :: encodePayload i

/-- `n` bytes of the number `w`, the least significant first: `IMG` as bytes (30 R70). -/
def bytesOf : Nat → Nat → List Byte
  | 0, _ => []
  | n + 1, w => BitVec.ofNat 8 w :: bytesOf n (w / 256)

/-- `IMG`, the little-endian number of an image's bytes (30 R70). -/
def imageNumber : List Byte → Nat
  | [] => 0
  | b :: bs => b.toNat + 256 * imageNumber bs

/-- A word of the opcode table as its first byte and eleven payload bytes, the bits above `nbits` zero (30 R70). -/
def tableImage (nbits w : Nat) : Byte × List Byte :=
  (BitVec.ofNat 8 (w % 2 ^ nbits), bytesOf 11 (w % 2 ^ nbits / 256))

/-- The instruction the decoder reads from a word of the opcode table. A word of one byte is a host command code; a byte that is
no code, and every longer word, is a slot image, zeros above `nbits`. Log entry 17. -/
def decodeTableWord (nbits w : Nat) : Option Instr :=
  let image := tableImage nbits w
  match (if nbits ≤ 8 then decodeCode image.1 else .error .reservedCode) with
  | .ok i => some i
  | .error _ =>
    match decodeImage image.1 image.2 with
    | .ok i => some i
    | .error _ => none

end Sys2Proof
end

