-- ==== Sys2Proof/Machine/Sparse.lean ====
section
/-! DEFINITION. A total map from addresses to values, held as plain data: the slot file and XMEM. A map lists only the addresses
whose value is not the default, with strictly rising addresses, so that equal maps are equal lists. -/
namespace Sys2Proof.Machine

variable {α : Type}

/-- The value at address `k`: the listed one, else the default `d`. -/
def sparseGet (d : α) (k : Nat) : List (Nat × α) → α
  | [] => d
  | (a, v) :: rest => if a = k then v else sparseGet d k rest

/-- The entries whose address is not `k`. -/
def sparseErase (k : Nat) : List (Nat × α) → List (Nat × α)
  | [] => []
  | (a, v) :: rest => if a = k then sparseErase k rest else (a, v) :: sparseErase k rest

/-- An entry put in the place its address has in the rising order. -/
def sparseInsert (k : Nat) (v : α) : List (Nat × α) → List (Nat × α)
  | [] => [(k, v)]
  | (a, w) :: rest => if k < a then (k, v) :: (a, w) :: rest else (a, w) :: sparseInsert k v rest

/-- Write `v` at address `k`: writing the default removes the entry. -/
def sparseSet [DecidableEq α] (d : α) (k : Nat) (v : α) (m : List (Nat × α)) : List (Nat × α) :=
  if v = d then sparseErase k m else sparseInsert k v (sparseErase k m)

/-- The addresses rise strictly, the first being at least `lo`. -/
def sparseRising (lo : Nat) : List (Nat × α) → Bool
  | [] => true
  | (a, _) :: rest => decide (lo ≤ a) && sparseRising (a + 1) rest

/-- The canonical form: strictly rising addresses below `bound`, no entry equal to the default `d`. -/
def sparseWf [DecidableEq α] (d : α) (bound : Nat) (m : List (Nat × α)) : Bool :=
  sparseRising 0 m && m.all (fun e => decide (e.1 < bound) && decide (e.2 ≠ d))

end Sys2Proof.Machine
end

