-- ==== Sys2Proof/Machine/Operands.lean ====
section
/-! DEFINITION. What the commands' rules compute with: the integer functions (spec/00_scope.md rule R4), the pixel and the working
byte (rules R5, R6), reads of XMEM (spec/20_memory.md rules R43, R44, R46), the orientation transform
(spec/40_orientation_transform.md rule R90), and the result of an evaluation (spec/41_primitive_commands.md rule R100). -/
namespace Sys2Proof.Machine

/-- `tdiv(a, b)`, the quotient truncated toward zero (00 R4). -/
def tdiv (a b : Int) : Int := Int.tdiv a b

/-- `posmod(a, m)` for `m > 0`: the `r` in `[0, m-1]` with `a - r` divisible by `m` (00 R4). -/
def posmod (a m : Int) : Int := a % m

/-- `sext_16`: a field read as `int16` (00 section 5.1). -/
def sext (w : Word) : Int := w.toInt

/-- `zext_16`: a field read as `uint16` (00 section 5.1). -/
def zext (w : Word) : Int := w.toNat

/-- `zext_8`: a byte read as `uint8` (00 section 5.1). -/
def zextByte (b : Byte) : Int := b.toNat

/-- `BitAt(b, i)` (42 R137): bit `i` of the byte, 0 outside `[0, 7]`. -/
def bitAt (b : Byte) (i : Int) : Bool := decide (0 ≤ i) && decide (i ≤ 7) && b.getLsbD i.toNat

/-- `Mask(x)` (00 R6). -/
def mask (x : Int) : Byte := 0x80#8 >>> (posmod x 8).toNat

/-- `Clear(wb, x)` (00 R6): the pixel of device column `x` drawn, every other pixel unchanged. -/
def clear (wb : Byte) (x : Int) : Byte := wb &&& ~~~ mask x

/-- `XRead(a)` (20 R43): the byte XMEM holds at `a mod 65536`. -/
def xread (m : List Host.Cell) (a : Int) : Byte := sparseGet xmemDefault (posmod a 65536).toNat m

/-- `XRead16(a)` (00 section 5.3): little-endian. -/
def xread16 (m : List Host.Cell) (a : Int) : Word := le16 (xread m a) (xread m (a + 1))

/-- `T(o, x, y)` (40 R90, R91): the device's own `W` and `H` in every orientation, exact integers. -/
def transform (p : Params) (o : BitVec 2) (x y : Int) : Int × Int :=
  match o.toNat with
  | 0 => (x, y)
  | 1 => (p.width - y, p.height - x)
  | 2 => (p.width - x, p.height - y)
  | _ => (y, x)

/-- What an evaluation is given besides the command (41 R100): the working byte, a device-space pixel, the orientation. -/
structure Pixel where
  wb : Byte
  x : Int
  y : Int
  o : BitVec 2
  deriving DecidableEq, Repr

/-- What an evaluation answers. -/
inductive Eval where
  /-- The new working byte (41 R100). -/
  | byte (b : Byte)
  /-- Any byte: a `RAW` at a pixel off the device (93 U2). -/
  | unspecified
  /-- A character outside the font's range (93 U4). -/
  | badGlyph
  /-- No drawing command: a reserved image (30 R72) or a host command, which no slot holds. -/
  | noCommand
  deriving DecidableEq, Repr

/-- The evaluation of a clear-only command from its membership predicate (41 R100). -/
def clearIf (member : Bool) (q : Pixel) : Eval := .byte (if member then clear q.wb q.x else q.wb)

end Sys2Proof.Machine
end

