-- ==== Sys2Proof/Machine/Ops.lean ====
section
/-! DEFINITION. The named operations over the state: the slot file, XMEM and the host register file, the one exception, the
sweep of a render pass, and the fetch of what the next step runs. -/
namespace Sys2Proof.Machine

/-! ### The slot file (spec/10_state.md rules R11, R30) -/

/-- Slot `i` as stored. -/
def slotAt (s : State) (i : Nat) : Slot := sparseGet (blankSlot s.params) i s.slots

/-- `SLOT[i].TAG <- tag` and `SLOT[i].PAYLOAD[k] <- pl[k]` for `k < footprint(tag)` (43 R151): the payload bytes beyond the
footprint keep what they held. -/
def writeSlot (i : Nat) (tag : Byte) (pl : List Byte) (s : State) : State :=
  let slot : Slot :=
    { tag := tag, payload := pl.take (footprint tag) ++ (slotAt s i).payload.drop (footprint tag) }
  { s with slots := sparseSet (blankSlot s.params) i slot s.slots }

/-- `Decode(SLOT[i].TAG, SLOT[i].PAYLOAD)` (30 R63, 43 R158). -/
def decodeSlot (s : State) (i : Nat) : Except DecodeError Instr :=
  decodeImage (slotAt s i).tag (slotAt s i).payload

/-! ### XMEM (spec/20_memory.md rule R43; written by HOST only) -/

/-- HOST puts a byte into XMEM. -/
def writeXmem (a : Word) (b : Byte) (s : State) : State :=
  { s with xmem := sparseSet xmemDefault a.toNat b s.xmem }

/-! ### Free values (spec/93_implementation_defined.md, `any value`) -/

/-- The byte of the next draw. -/
def freshByte (s : State) : Byte := Config.freeByte s.draws

/-! ### The exception (spec/60_exceptions.md rules R190, R193) -/

/-- `raise Reject(cause)` (60 R190): REJ and CAUSE are written and nothing else, and the PUSH ends there. -/
def raiseReject (c : Cause) (s : State) : Host.Outcome State Fault Refusal := .next (setRejected c s)

/-- There is no handler and no return instruction (60 R193): REJ and CAUSE go back to 0 with the next accepted PUSH. -/
def acceptPush (s : State) : Host.Outcome State Fault Refusal := .next (setAccepted s)

/-! ### Where an evaluation's result goes -/

/-- RENDER's use of an evaluation (44 R172): `WB <- Process(...)`. An unspecified byte is a free value. -/
def intoWb (e : Eval) (s : State) : Host.Outcome State Fault Refusal :=
  match e with
  | .byte b => .next { s with wb := b }
  | .unspecified => .next { s with wb := freshByte s, draws := s.draws + 1 }
  | .badGlyph => .fault .glyphOutsideFont
  | .noCommand => .refused .undecodableSlot

/-- PROCESS's use of an evaluation (43 R156): `P_OUT <- Process(...)`. An unspecified byte is a free value. -/
def intoPOut (e : Eval) (s : State) : Host.Outcome State Fault Refusal :=
  match e with
  | .byte b => .next { s with pOut := b }
  | .unspecified => .next { s with pOut := freshByte s, draws := s.draws + 1 }
  | .badGlyph => .fault .glyphOutsideFont
  | .noCommand => .refused .undecodableSlot

/-! ### The sweep (spec/10_state.md rule R14, spec/44_render_pipeline.md rule R172) -/

/-- `W / 8`: the bytes of a row. -/
def rowBytes (p : Params) : Nat := p.width / 8

/-- The pixel under evaluation, `(8 * XG + BI, Y)` under `ORIENT_ACT`, with the working byte (10 R14, 44 R171, R172). -/
def sweepPixel (s : State) : Pixel :=
  { wb := s.wb, x := 8 * (s.xg : Int) + s.bi, y := s.y, o := s.orientAct }

/-- What PROCESS evaluates: `P_WB` at the pixel `(P_X, P_Y)` under the live `ORIENT` (43 R156). -/
def hostPixel (s : State) : Pixel :=
  { wb := s.pWb, x := sext s.pX, y := sext s.pY, o := s.orient }

/-- The start of a pass (44 R170, R171, R172): BUSY set, the orientation latched, the counters and `WB` at their first values. -/
def startPass (s : State) : State :=
  { s with busy := true, orientAct := s.orient, y := 0, xg := 0, ci := 0, bi := 0, wb := 0xFF }

/-- The counters after one evaluation: `BI` innermost, then `CI` (10 R14). -/
def advanceSweep (s : State) : State :=
  if s.bi < 7 then { s with bi := s.bi + 1 } else { s with bi := 0, ci := s.ci + 1 }

/-- The end of a pass (44 R172, 70 R223): BUSY cleared; `WB` and the counters are unspecified from here on (10 R13, R14), so
each is a free value. Log entry 27. The counters' free values are in no range: DESIGN CHOICE, log entry 29. -/
def endPass (s : State) : State :=
  { s with
    busy := false
    wb := Config.freeByte s.draws
    y := Config.freeCount s.draws
    xg := Config.freeCount (s.draws + 1)
    ci := Config.freeCount (s.draws + 2)
    bi := Config.freeCount (s.draws + 3)
    draws := s.draws + 4 }

/-- The byte position after an emission: `XG` inside `Y` (10 R14), `WB` blank again; after the last one the pass ends. -/
def nextPosition (s : State) : State :=
  if s.xg + 1 < rowBytes s.params then { s with xg := s.xg + 1, ci := 0, bi := 0, wb := 0xFF }
  else if s.y + 1 < s.params.height then { s with y := s.y + 1, xg := 0, ci := 0, bi := 0, wb := 0xFF }
  else endPass s

/-- `Emit(WB)` (20 R47), and the sweep goes on to the next byte position. -/
def emitByte (s : State) : State := nextPosition { s with out := s.out ++ [s.wb] }

/-! ### The host register file (spec/10_state.md rule R20) -/

/-- A write of a register that is not `CMD`, while BUSY is 0: RO and reserved registers ignore it (10 R20, R23), a register
narrower than 16 bits takes the low bits. -/
def writeReg (reg : Nat) (v : Word) (s : State) : State :=
  match reg with
  | 0x02 => { s with orient := v.setWidth 2 }
  | 0x08 => { s with stageTag := v.setWidth 8 }
  | 0x09 => { s with pIdx := v }
  | 0x0A => { s with pWb := v.setWidth 8 }
  | 0x0B => { s with pX := v }
  | 0x0C => { s with pY := v }
  | r => if 0x10 ≤ r ∧ r ≤ 0x1A then { s with stage := s.stage.setIfInBounds (r - 0x10) (v.setWidth 8) } else s

/-- What a read of a register returns (10 R20): `CMD` and reserved numbers read 0. -/
def readReg (s : State) (reg : Nat) : Word :=
  match reg with
  | 0x01 => (statusByte s).setWidth 16
  | 0x02 => s.orient.setWidth 16
  | 0x03 => s.size
  | 0x04 => BitVec.ofNat 16 s.params.capacity
  | 0x05 => BitVec.ofNat 16 s.params.slotSize
  | 0x06 => BitVec.ofNat 16 s.params.width
  | 0x07 => BitVec.ofNat 16 s.params.height
  | 0x08 => s.stageTag.setWidth 16
  | 0x09 => s.pIdx
  | 0x0A => s.pWb.setWidth 16
  | 0x0B => s.pX
  | 0x0C => s.pY
  | 0x0D => s.pOut.setWidth 16
  | r => if 0x10 ≤ r ∧ r ≤ 0x1A then (s.stage.toList.getD (r - 0x10) 0).setWidth 16 else 0

/-- The reset event (70 R210): the block's state as `State.reset` has it, OUT empty. What is not the block's stays: the
parameters, XMEM, the environment's moves to come, the count of free values. Log entry 14. -/
def resetEvent (s : State) : State :=
  { State.reset with params := s.params, xmem := s.xmem, env := s.env, draws := s.draws }

/-! ### What the next step runs -/

/-- What a step has to do, and the state it does it in. -/
inductive Move where
  /-- A host command accepted from `CMD` runs (30 R75). -/
  | command (i : Instr) (s : State)
  /-- The sweep evaluates the drawing command of slot `CI` at its pixel (44 R172). -/
  | evaluate (i : Instr) (s : State)
  /-- No instruction runs: this is the next state. -/
  | quiet (s : State)
  /-- The environment broke a contract of the block. -/
  | stop (f : Fault)
  /-- There is nothing to run that the spec gives a meaning. -/
  | reject (r : Refusal)
  deriving DecidableEq, Repr

/-- Every stored command has been folded into the working byte: its emission is due (44 R172). -/
def foldDone (s : State) : Bool := decide (s.size.toNat ≤ s.ci)

/-- ENGINE's own move: in a pass the next evaluation or emission, otherwise nothing (44 R172, 70 R211). -/
def engineMove (s : State) : Move :=
  if s.busy then
    if foldDone s then .quiet (emitByte s)
    else match decodeSlot s s.ci with
      | .ok i => .evaluate i s
      | .error _ => .reject .undecodableSlot
  else .quiet s

/-- A host write (10 R20, R22): ignored while BUSY is 1; a code on `CMD` starts its host command (30 R75), a reserved code is
ignored (30 R76). -/
def hostWrite (reg : Nat) (v : Word) (s : State) : Move :=
  if s.busy then .quiet s
  else if reg = 0x00 then
    match decodeCode (v.setWidth 8) with
    | .ok i => .command i s
    | .error _ => .quiet s
  else .quiet (writeReg reg v s)

/-- A move of the environment, already taken off the list. -/
def envMove (m : EnvMove) (s : State) : Move :=
  match m with
  | .write reg v => hostWrite reg v s
  | .read reg => .quiet { s with reads := s.reads ++ [(reg, readReg s reg)] }
  | .engine => engineMove s
  | .hostXmem a b => if s.busy then .stop .xmemChangedDuringPass else .quiet (writeXmem a b s)
  | .sinkStall => if s.busy && foldDone s then .quiet s else engineMove s
  | .reset => .quiet (resetEvent s)

/-- What the next step does: the environment's oldest pending move, or ENGINE's own where there is none. -/
def fetch (s : State) : Move :=
  match s.env with
  | [] => engineMove s
  | m :: rest => envMove m { s with env := rest }

/-- What stands around an evaluation in a pass: after it the sweep advances. -/
def thenAdvance (r : Host.Outcome State Fault Refusal) : Host.Outcome State Fault Refusal :=
  match r with
  | .next s => .next (advanceSweep s)
  | .fault f => .fault f
  | .refused e => .refused e

end Sys2Proof.Machine
end

