-- ==== Sys2Proof/Machine/Primitives.lean ====
section
/-! DEFINITION. The primitive drawing commands (spec/41_primitive_commands.md). For each: its membership predicate, its
evaluation (rule R100), and its meaning, one evaluation at the sweep position (spec/44_render_pipeline.md rule R172). -/
namespace Sys2Proof.Machine

/-! ### POINT (41 R101) -/

def memberPoint (p : Params) (px py : Word) (q : Pixel) : Bool :=
  let t := transform p q.o (sext px) (sext py)
  decide (q.x = t.1) && decide (q.y = t.2)

def processPoint (p : Params) (px py : Word) (q : Pixel) : Eval := clearIf (memberPoint p px py q) q

/-- The meaning of `POINT` (41 R101). -/
def execPoint (px py : Word) (s : State) : Host.Outcome State Fault Refusal :=
  intoWb (processPoint s.params px py (sweepPixel s)) s

/-! ### LINE (41 R104) -/

/-- The inclusive test of one horizontal run: row `ty`, columns `tx .. tx + ex`. -/
def onRow (tx ty ex x y : Int) : Bool := decide (y = ty) && decide (tx ≤ x) && decide (x ≤ tx + ex)

/-- The inclusive test of one vertical run: column `tx`, rows `ty .. ty + ey`. -/
def onColumn (tx ty ey x y : Int) : Bool := decide (x = tx) && decide (ty ≤ y) && decide (y ≤ ty + ey)

def memberLine (p : Params) (x0 y0 x1 y1 : Word) (q : Pixel) : Bool :=
  let t := transform p q.o (sext x0) (sext y0)
  let ex := sext x1 - sext x0
  let ey := sext y1 - sext y0
  (decide (ey = 0) && onRow t.1 t.2 ex q.x q.y) || (decide (ex = 0) && onColumn t.1 t.2 ey q.x q.y)

def processLine (p : Params) (x0 y0 x1 y1 : Word) (q : Pixel) : Eval := clearIf (memberLine p x0 y0 x1 y1 q) q

/-- The meaning of `LINE` (41 R104). -/
def execLine (x0 y0 x1 y1 : Word) (s : State) : Host.Outcome State Fault Refusal :=
  intoWb (processLine s.params x0 y0 x1 y1 (sweepPixel s)) s

/-! ### RECT.F (41 R110) -/

def memberRectF (p : Params) (x0 y0 w h : Word) (q : Pixel) : Bool :=
  let t := transform p q.o (sext x0) (sext y0)
  decide (t.1 ≤ q.x) && decide (q.x ≤ t.1 + sext w) && decide (t.2 ≤ q.y) && decide (q.y ≤ t.2 + sext h)

def processRectF (p : Params) (x0 y0 w h : Word) (q : Pixel) : Eval := clearIf (memberRectF p x0 y0 w h q) q

/-- The meaning of `RECT.F` (41 R110). -/
def execRectF (x0 y0 w h : Word) (s : State) : Host.Outcome State Fault Refusal :=
  intoWb (processRectF s.params x0 y0 w h (sweepPixel s)) s

/-! ### RECT.O (41 R112) -/

/-- Top, bottom, left or right edge, all four placed from the one transformed anchor. -/
def memberRectO (p : Params) (x0 y0 w h : Word) (q : Pixel) : Bool :=
  let t := transform p q.o (sext x0) (sext y0)
  onRow t.1 t.2 (sext w) q.x q.y || onRow t.1 (t.2 + sext h) (sext w) q.x q.y
    || onColumn t.1 t.2 (sext h) q.x q.y || onColumn (t.1 + sext w) t.2 (sext h) q.x q.y

def processRectO (p : Params) (x0 y0 w h : Word) (q : Pixel) : Eval := clearIf (memberRectO p x0 y0 w h q) q

/-- The meaning of `RECT.O` (41 R112). -/
def execRectO (x0 y0 w h : Word) (s : State) : Host.Outcome State Fault Refusal :=
  intoWb (processRectO s.params x0 y0 w h (sweepPixel s)) s

/-! ### CIRCLE.F and CIRCLE.O (41 R116, R117, R118) -/

/-- The offset of the pixel from the transformed centre. -/
def circleOffset (p : Params) (cx cy : Word) (q : Pixel) : Int × Int :=
  let t := transform p q.o (sext cx) (sext cy)
  (q.x - t.1, q.y - t.2)

/-- The bounding check of 41 R116: within `r + 1` in both directions. -/
def circleNear (r : Int) (d : Int × Int) : Bool := decide (|d.1| ≤ r + 1) && decide (|d.2| ≤ r + 1)

/-- `d2 = dx*dx + dy*dy` (41 R116). -/
def circleD2 (d : Int × Int) : Int := d.1 * d.1 + d.2 * d.2

def memberCircleF (p : Params) (cx cy r : Word) (q : Pixel) : Bool :=
  let d := circleOffset p cx cy q
  circleNear (zext r) d && decide (circleD2 d ≤ zext r * zext r)

def processCircleF (p : Params) (cx cy r : Word) (q : Pixel) : Eval := clearIf (memberCircleF p cx cy r q) q

/-- The meaning of `CIRCLE.F` (41 R117). -/
def execCircleF (cx cy r : Word) (s : State) : Host.Outcome State Fault Refusal :=
  intoWb (processCircleF s.params cx cy r (sweepPixel s)) s

/-- `4*d2 < (2*r + 1)^2` and (`r = 0` or `4*d2 >= (2*r - 1)^2`): the exact form of `round(sqrt(d2)) = r` (41 R118). -/
def onRing (r d2 : Int) : Bool :=
  decide (4 * d2 < (2 * r + 1) * (2 * r + 1)) && (decide (r = 0) || decide ((2 * r - 1) * (2 * r - 1) ≤ 4 * d2))

def memberCircleO (p : Params) (cx cy r : Word) (q : Pixel) : Bool :=
  let d := circleOffset p cx cy q
  circleNear (zext r) d && onRing (zext r) (circleD2 d)

def processCircleO (p : Params) (cx cy r : Word) (q : Pixel) : Eval := clearIf (memberCircleO p cx cy r q) q

/-- The meaning of `CIRCLE.O` (41 R118). -/
def execCircleO (cx cy r : Word) (s : State) : Host.Outcome State Fault Refusal :=
  intoWb (processCircleO s.params cx cy r (sweepPixel s)) s

/-! ### RAW (41 R122) -/

/-- The pixel is on the device: the only pixels for which 41 R122 gives `RAW` a byte. -/
def onDevice (p : Params) (x y : Int) : Bool :=
  decide (0 ≤ x) && decide (x.toNat < p.width) && decide (0 ≤ y) && decide (y.toNat < p.height)

/-- `RawByte(BUF, x, y)` (41 R122, 20 R45). -/
def rawByte (p : Params) (m : List Host.Cell) (buf : Word) (x y : Int) : Byte :=
  xread m (zext buf + y * (rowBytes p : Int) + tdiv x 8)

/-- The whole byte of the bitmap, `wb` and the orientation not used; off the device any value (93 U2). -/
def processRaw (p : Params) (m : List Host.Cell) (buf : Word) (q : Pixel) : Eval :=
  if onDevice p q.x q.y then .byte (rawByte p m buf q.x q.y) else .unspecified

/-- The meaning of `RAW` (41 R122). -/
def execRaw (buf : Word) (s : State) : Host.Outcome State Fault Refusal :=
  intoWb (processRaw s.params s.xmem buf (sweepPixel s)) s

end Sys2Proof.Machine
end

