-- ==== Sys2Proof/Machine/Text.lean ====
section
/-! DEFINITION. The Text command and its glyph lookup (spec/42_text_command.md). -/
namespace Sys2Proof.Machine

/-- A font, read from its 6-byte descriptor (20 R46). -/
structure Font where
  charmap : Int
  gw : Int
  gh : Int
  count : Int
  offset : Int
  deriving DecidableEq, Repr

/-- The descriptor at `FNT`, read again at every evaluation (42 R130, 20 R46). -/
def readFont (m : List Host.Cell) (fnt : Word) : Font where
  charmap := zext (xread16 m (zext fnt))
  gw := zextByte (xread m (zext fnt + 2))
  gh := zextByte (xread m (zext fnt + 3))
  count := zextByte (xread m (zext fnt + 4))
  offset := zextByte (xread m (zext fnt + 5))

/-- `CELL = GW + 1` (42 R130). -/
def Font.cell (f : Font) : Int := f.gw + 1

/-- Orientations 1 and 3: the vertical layouts (42 R131). -/
def isVertical (o : BitVec 2) : Bool := o = 1 || o = 3

/-- Orientations 2 and 3: string and glyph columns reversed (42 R134, R135). -/
def isReversed (o : BitVec 2) : Bool := o = 2 || o = 3

/-- Orientations 1 and 2: glyph rows reversed (42 R136). -/
def isRowFlipped (o : BitVec 2) : Bool := o = 1 || o = 2

/-- `(u, v)` (42 R131): the offsets of the pixel from the transformed anchor, along the string and across it. -/
def textOffsets (p : Params) (x y : Word) (q : Pixel) : Int × Int :=
  let t := transform p q.o (sext x) (sext y)
  if isVertical q.o then (q.y - t.2, q.x - t.1) else (q.x - t.1, q.y - t.2)

/-- Out of bounds (42 R132): half-open along the string, closed across it. -/
def textOutside (f : Font) (len scale u v : Int) : Bool :=
  decide (u < 0) || decide (f.cell * scale * len ≤ u) || decide (v < 0) || decide (f.gh * scale < v)

/-- `ci` (42 R133, R134): the index of the character the pixel falls in. -/
def textChar (o : BitVec 2) (f : Font) (len scale u : Int) : Int :=
  let gi := tdiv u (f.cell * scale)
  if isReversed o then len - 1 - gi else gi

/-- `c` (42 R133, R135): the column within the cell; `c = GW` is the spacing column. -/
def textColumn (o : BitVec 2) (f : Font) (scale u : Int) : Int :=
  let k := tdiv u scale
  if isReversed o then posmod (f.gw - 1 - k) f.cell else posmod k f.cell

/-- `bi` (42 R133, R136): the bit of the glyph column byte the pixel tests. -/
def textBit (o : BitVec 2) (f : Font) (scale v : Int) : Int :=
  let rr := tdiv v scale
  if isRowFlipped o then f.gh - 1 - rr else rr

/-- The glyph lookup and the result (42 R138, R139): `none` where the character is outside the font. -/
def glyphBit (m : List Host.Cell) (f : Font) (str : Word) (ci c bi : Int) : Option Bool :=
  let g := zextByte (xread m (zext str + ci)) - f.offset
  if 0 ≤ g ∧ g < f.count then some (bitAt (xread m (f.charmap + g * f.gw + c)) bi) else none

/-- Membership of `TEXT` (42 R130 to R139), in the order of the rules; `none` is the contract violation of 93 U4, met only by a
pixel that passes the bounds, spacing and bit-index tests. -/
def memberText (p : Params) (m : List Host.Cell) (x y str fnt len : Word) (scale : Byte) (q : Pixel) : Option Bool :=
  let f := readFont m fnt
  let n := zext len
  let k := zextByte scale
  let uv := textOffsets p x y q
  let c := textColumn q.o f k uv.1
  let bi := textBit q.o f k uv.2
  if textOutside f n k uv.1 uv.2 then some false
  else if c = f.gw then some false
  else if bi < 0 ∨ 7 < bi then some false
  else glyphBit m f str (textChar q.o f n k uv.1) c bi

/-- The evaluation of `TEXT` (41 R100, 42 R138). SCALE 0 is a reserved image (30 R72), which no slot holds. -/
def processText (p : Params) (m : List Host.Cell) (x y str fnt len : Word) (scale : Byte) (q : Pixel) : Eval :=
  if scale = 0 then .noCommand
  else match memberText p m x y str fnt len scale q with
    | some b => clearIf b q
    | none => .badGlyph

/-- The meaning of `TEXT` (42 R130). -/
def execText (x y str fnt len : Word) (scale : Byte) (s : State) : Host.Outcome State Fault Refusal :=
  intoWb (processText s.params s.xmem x y str fnt len scale (sweepPixel s)) s

end Sys2Proof.Machine
end

