-- ==== Sys2Proof/Machine/Buffer.lean ====
section
/-! DEFINITION. The command buffer and its dispatch: PUSH, POP, PROCESS (spec/43_command_buffer.md). -/
namespace Sys2Proof.Machine

/-- `Process(cmd, wb, x, y, o)` (41 R100): the dispatch of a stored command to its evaluator (43 R158). -/
def processCmd (p : Params) (m : List Host.Cell) (cmd : Instr) (q : Pixel) : Eval :=
  match cmd with
  | .point px py => processPoint p px py q
  | .line x0 y0 x1 y1 => processLine p x0 y0 x1 y1 q
  | .rectF x y w h => processRectF p x y w h q
  | .rectO x y w h => processRectO p x y w h q
  | .circleF cx cy r => processCircleF p cx cy r q
  | .circleO cx cy r => processCircleO p cx cy r q
  | .text x y str fnt len scale => processText p m x y str fnt len scale q
  | .raw buf => processRaw p m buf q
  | .push => .noCommand
  | .pop => .noCommand
  | .process => .noCommand
  | .render => .noCommand

/-- `Member(cmd, x, y, o)` (41 R100) for the clear-only commands; `none` is a `TEXT`'s contract violation (93 U4), and what has
no membership predicate: `RAW` and the host commands. -/
def memberCmd (p : Params) (m : List Host.Cell) (cmd : Instr) (q : Pixel) : Option Bool :=
  match cmd with
  | .point px py => some (memberPoint p px py q)
  | .line x0 y0 x1 y1 => some (memberLine p x0 y0 x1 y1 q)
  | .rectF x y w h => some (memberRectF p x y w h q)
  | .rectO x y w h => some (memberRectO p x y w h q)
  | .circleF cx cy r => some (memberCircleF p cx cy r q)
  | .circleO cx cy r => some (memberCircleO p cx cy r q)
  | .text x y str fnt len scale => memberText p m x y str fnt len scale q
  | .raw _ => none
  | .push => none
  | .pop => none
  | .process => none
  | .render => none

/-- The meaning of `PUSH` (43 R151): RSVD over TOOBIG over FULL (60 R192), else append. -/
def execPush (s : State) : Host.Outcome State Fault Refusal :=
  match decodeImage s.stageTag s.stage.toList with
  | .error _ => raiseReject .rsvd s
  | .ok _ =>
    if s.params.slotSize < footprint s.stageTag then raiseReject .tooBig s
    else if s.size.toNat = s.params.capacity then raiseReject .full s
    else
      let stored := writeSlot s.size.toNat s.stageTag s.stage.toList s
      acceptPush { stored with size := s.size + 1 }

/-- The meaning of `POP` (43 R153). -/
def execPop (s : State) : Host.Outcome State Fault Refusal :=
  if 0 < s.size.toNat then .next { s with size := s.size - 1 } else .next s

/-- The meaning of `PROCESS` (43 R156). An index at or above SIZE leaves `P_OUT` unspecified (93 U1): a free value. -/
def execProcess (s : State) : Host.Outcome State Fault Refusal :=
  if s.pIdx.toNat < s.size.toNat then
    match decodeSlot s s.pIdx.toNat with
    | .ok cmd => intoPOut (processCmd s.params s.xmem cmd (hostPixel s)) s
    | .error _ => .refused .undecodableSlot
  else intoPOut .unspecified s

end Sys2Proof.Machine
end

