-- ==== Sys2Proof/Machine/Render.lean ====
section
/-! DEFINITION. RENDER (spec/44_render_pipeline.md). Its meaning starts the pass; ENGINE's moves after it are the sweep of rule
R172 itself, one evaluation or one emission a step, until BUSY is 0 again. Log entry 10. -/
namespace Sys2Proof.Machine

/-- The meaning of `RENDER` (44 R170, R171): the pass is accepted and its sweep is at the first pixel. -/
def execRender (s : State) : Host.Outcome State Fault Refusal := .next (startPass s)

end Sys2Proof.Machine
end

