-- ==== Sys2Proof/Machine/Dispatch.lean ====
section
/-! DEFINITION. One arm per command (spec/opcode_table.json): the meaning of each. -/
namespace Sys2Proof.Machine

def exec (i : Instr) (s : State) : Host.Outcome State Fault Refusal :=
  match i with
  | .point px py => Sys2Proof.Machine.execPoint px py s
  | .line x0 y0 x1 y1 => Sys2Proof.Machine.execLine x0 y0 x1 y1 s
  | .rectF x y w h => Sys2Proof.Machine.execRectF x y w h s
  | .rectO x y w h => Sys2Proof.Machine.execRectO x y w h s
  | .circleF cx cy r => Sys2Proof.Machine.execCircleF cx cy r s
  | .circleO cx cy r => Sys2Proof.Machine.execCircleO cx cy r s
  | .text x y str fnt len scale => Sys2Proof.Machine.execText x y str fnt len scale s
  | .raw buf => Sys2Proof.Machine.execRaw buf s
  | .push => Sys2Proof.Machine.execPush s
  | .pop => Sys2Proof.Machine.execPop s
  | .process => Sys2Proof.Machine.execProcess s
  | .render => Sys2Proof.Machine.execRender s

end Sys2Proof.Machine
end

