-- ==== Sys2Proof/Machine/Step.lean ====
section
/-! DEFINITION. One step of the machine: what the fetch answers, run. -/
namespace Sys2Proof.Machine

/-- One step: a host command from `CMD`, an evaluation of the sweep, or a move in which no instruction runs. -/
def step (s : State) : Host.Outcome State Fault Refusal :=
  match fetch s with
  | .command i t => exec i t
  | .evaluate i t => thenAdvance (exec i t)
  | .quiet t => .next t
  | .stop f => .fault f
  | .reject r => .refused r

/-- `s` with an instruction of the opcode table placed so that the very next step runs it. A host command: HOST's next move is
the write of its code to `CMD`, ENGINE idle. A drawing command: its image lies in slot 0, and a pass has just started. Log
entry 18. -/
def State.withFetchWord (s : State) (nbits w : Nat) : State :=
  let image := tableImage nbits w
  match (if nbits ≤ 8 then decodeCode image.1 else .error .reservedCode) with
  | .ok _ => { s with busy := false, env := .write 0x00 (image.1.setWidth 16) :: s.env }
  | .error _ =>
    let slot : Slot := { tag := image.1, payload := image.2 ++ (slotAt s 0).payload.drop 11 }
    let stored : State := { s with slots := sparseSet (blankSlot s.params) 0 slot s.slots }
    { startPass stored with env := .engine :: s.env, size := if s.size = 0 then 1 else s.size }

end Sys2Proof.Machine
end

