-- ==== Sys2Proof/Machine/Pass.lean ====
section
/-! DEFINITION. A render pass as a whole: the loop nest of spec/44_render_pipeline.md rule R172 as one function of what rule R176
says it depends on. The machine's steps compute it one evaluation at a time; claims compare the two. -/
namespace Sys2Proof.Machine

/-- One evaluation as RENDER uses it (41 R100): the new working byte, `none` where there is none (93 U4). -/
def processByte (p : Params) (m : List Host.Cell) (cmd : Instr) (q : Pixel) : Option Byte :=
  match processCmd p m cmd q with
  | .byte b => some b
  | .unspecified => none
  | .badGlyph => none
  | .noCommand => none

/-- The innermost loop of 44 R172 for the bit positions listed: one command folded into the working byte. -/
def foldLanes (p : Params) (m : List Host.Cell) (o : BitVec 2) (y xg : Nat) (cmd : Instr) (lanes : List Nat) (wb : Byte) :
    Option Byte :=
  lanes.foldlM (fun b (bi : Nat) => processByte p m cmd { wb := b, x := 8 * (xg : Int) + bi, y := y, o := o }) wb

/-- The two inner loops of 44 R172: every command of the buffer, in buffer order, each at the 8 bit positions. -/
def foldCommands (p : Params) (m : List Host.Cell) (o : BitVec 2) (y xg : Nat) (cmds : List Instr) (wb : Byte) :
    Option Byte :=
  cmds.foldlM (fun b cmd => foldLanes p m o y xg cmd (List.range 8) b) wb

/-- The byte emitted for row `y` and byte column `xg` (44 R172): the fold starts from the all-blank byte. -/
def passByte (p : Params) (m : List Host.Cell) (o : BitVec 2) (cmds : List Instr) (y xg : Nat) : Option Byte :=
  foldCommands p m o y xg cmds 0xFF

/-- The byte positions `(Y, XG)` in emission order (44 R173). -/
def positions (p : Params) : List (Nat × Nat) :=
  (List.range p.height).flatMap (fun y => (List.range (rowBytes p)).map (fun xg => (y, xg)))

/-- The bytes a pass emits (44 R172, R174). -/
def passBytes (p : Params) (m : List Host.Cell) (o : BitVec 2) (cmds : List Instr) : Option (List Byte) :=
  (positions p).mapM (fun at_ => passByte p m o cmds at_.1 at_.2)

/-- The commands of the buffer, `SLOT[0] .. SLOT[SIZE-1]` decoded (43 R158). -/
def bufferCommands (s : State) : Option (List Instr) :=
  (List.range s.size.toNat).mapM (fun i => (decodeSlot s i).toOption)

/-- The bytes RENDER emits from the state `s` (44 R176). -/
def renderBytes (s : State) : Option (List Byte) :=
  (bufferCommands s).bind (fun cmds => passBytes s.params s.xmem s.orient cmds)

/-- How many steps a pass takes: at every byte position `8 * SIZE` evaluations and one emission (44 R174). -/
def passSteps (s : State) : Nat := rowBytes s.params * s.params.height * (8 * s.size.toNat + 1)

/-- The commands after the last `RAW` of the buffer (44 R175). -/
def afterLastRaw (cmds : List Instr) : List Instr := (cmds.reverse.takeWhile Instr.isClearOnly).reverse

/-- The base byte of 44 R175: the last `RAW`'s byte if there is one, else all blank. -/
def baseByte (p : Params) (m : List Host.Cell) (cmds : List Instr) (y xg : Nat) : Byte :=
  match cmds.reverse.dropWhile Instr.isClearOnly with
  | .raw buf :: _ => rawByte p m buf (8 * (xg : Int)) y
  | _ => 0xFF

end Sys2Proof.Machine
end

