-- ==== Sys2Proof/Safety.lean ====
section
/-! DEFINITION. What claims about runs are stated with: the invariant of the machine (spec/10_state.md rule R27 and the ranges of
rules R12, R14, R16), and what a step that stops looks like. -/
namespace Sys2Proof.Machine

/-- XMEM is in canonical form: 16-bit addresses strictly rising, no entry equal to what an unlisted address reads as. -/
abbrev Memory.wf (m : List Host.Cell) : Bool := sparseWf xmemDefault 65536 m

/-- The slot file is in canonical form: slot numbers below `N` strictly rising, no blank slot listed. -/
abbrev slotsWf (s : State) : Bool := sparseWf (blankSlot s.params) s.params.capacity s.slots

/-- Every valid slot holds a drawing command that fits it (10 R27). -/
def SlotsDecode (s : State) : Prop :=
  ∀ i < s.size.toNat, (∃ cmd, decodeSlot s i = .ok cmd) ∧ footprint (slotAt s i).tag ≤ s.params.slotSize

/-- Every slot has `S` payload bytes (10 R11). -/
def PayloadsFit (s : State) : Prop := ∀ i, (slotAt s i).payload.length = s.params.slotSize

/-- In a pass the counters are in the ranges of 10 R14, `CI` reaching `SIZE` when the emission is due, and the latch is `ORIENT`
(10 R16). -/
def SweepInRange (s : State) : Prop :=
  s.y < s.params.height ∧ s.xg < rowBytes s.params ∧ s.ci ≤ s.size.toNat ∧ s.bi < 8 ∧ (s.ci = s.size.toNat → s.bi = 0)
    ∧ s.orientAct = s.orient

/-- The invariant: 10 R27, with the canonical forms of the two memories and the ranges of the sweep. -/
structure Inv (s : State) : Prop where
  /-- `0 <= SIZE <= N` (10 R12, R27). -/
  size_le : s.size.toNat ≤ s.params.capacity
  /-- 10 R27: `Decode` of every valid slot succeeds and its footprint fits. -/
  slots_decode : SlotsDecode s
  /-- 10 R11. -/
  payloads_fit : PayloadsFit s
  /-- `STATUS.CAUSE = 0` exactly when `STATUS.REJ = 0` (10 R27). -/
  cause_rej : s.cause = .none ↔ s.rej = false
  /-- 10 R14, R16. -/
  sweep : s.busy = true → SweepInRange s
  /-- The slot file's canonical form. -/
  slots_wf : slotsWf s = true
  /-- XMEM's canonical form. -/
  xmem_wf : Memory.wf s.xmem = true

/-- Character `ci` of the string at `str` is in the font's range, so that its glyph lookup is defined (42 R139). -/
abbrev CharInFont (m : List Host.Cell) (str : Word) (f : Font) (ci : Int) : Prop :=
  f.offset ≤ zextByte (xread m (zext str + ci)) ∧ zextByte (xread m (zext str + ci)) < f.offset + f.count

/-- Every character of the string is in the font's range, what the caller of `TEXT` owes (42 R139, 70 R212). -/
def StringInFont (m : List Host.Cell) (str fnt len : Word) : Prop :=
  ∀ i : Nat, i < len.toNat → CharInFont m str (readFont m fnt) i

/-- The pixel at the offsets `(u, v)` from the anchor of a `TEXT` tests a bit of a glyph: it lies in replica `(a, e)` of column `j`,
row `rr` of cell `gi`, `j` no spacing column, and the table of 42 R141 names the character `ci`, the glyph column `c` and the row
bit `bi`, a bit of the byte. At the one row beyond the glyph, `rr = GH`, there is one replica (42 R132, R140 (d)). -/
def GlyphAt (o : BitVec 2) (f : Font) (len scale u v ci c bi : Int) : Prop :=
  ∃ gi j rr a e : Int,
    0 ≤ gi ∧ gi < len ∧ 0 ≤ j ∧ j < f.gw ∧ 0 ≤ rr ∧ rr ≤ f.gh ∧
    0 ≤ a ∧ a < scale ∧ 0 ≤ e ∧ e < scale ∧ (rr = f.gh → e = 0) ∧
    u = (gi * (f.gw + 1) + j) * scale + a ∧ v = rr * scale + e ∧
    (o = 0 → ci = gi ∧ c = j ∧ bi = rr) ∧
    (o = 1 → ci = gi ∧ c = j ∧ bi = f.gh - 1 - rr) ∧
    (o = 2 → ci = len - 1 - gi ∧ c = f.gw - 1 - j ∧ bi = f.gh - 1 - rr) ∧
    (o = 3 → ci = len - 1 - gi ∧ c = f.gw - 1 - j ∧ bi = rr) ∧
    0 ≤ bi ∧ bi ≤ 7

/-- A command's strings are in their fonts' range; only `TEXT` has one. -/
def CommandInFont (m : List Host.Cell) : Instr → Prop
  | .text _ _ str fnt len _ => StringInFont m str fnt len
  | .point _ _ | .line _ _ _ _ | .rectF _ _ _ _ | .rectO _ _ _ _ | .circleF _ _ _ | .circleO _ _ _ | .raw _
  | .push | .pop | .process | .render => True

end Sys2Proof.Machine
end

