-- ==== Sys2Proof/Certificates/Slice0/Obligations.lean ====
section
/-! DEFINITION. The statements about the model, for the provers. Each docstring names the rule of spec/ it comes from. -/

open Sys2Proof Sys2Proof.Machine

/-! ### Encodings -/

/-- 30 R60, R63 to R69: decoding the encoding of a well-formed command gives it back with every operand, whatever payload bytes
follow a slot image's own. -/
def Obligations.DecodeOfEncodeIsTheCommand : Prop :=
  ∀ i : Instr, i.WellFormed →
    decodeBytes (encode i) = .ok i ∧
      (i.isDrawing = true → ∀ tail : List Byte, decodeImage (leadByte i) (encodePayload i ++ tail) = .ok i)

/-- 30 R62, R63: a slot image that decodes is the encoding of what it decodes to, in the first `footprint(TAG)` payload bytes; the
command is a well-formed drawing command. No two images with the same TAG and different bytes there decode alike. -/
def Obligations.EncodeOfDecodeIsTheImage : Prop :=
  ∀ (tag : Byte) (pl : List Byte) (i : Instr), decodeImage tag pl = .ok i →
    i.WellFormed ∧ i.isDrawing = true ∧ leadByte i = tag ∧ encodePayload i = pl.take (footprint tag)
      ∧ (encodePayload i).length = footprint tag

/-- 30 R72: which images are reserved, and that a PUSH of one is rejected with cause RSVD and changes nothing but STATUS. -/
def Obligations.ReservedImagesAreRejected : Prop :=
  ∀ s : State,
    (s.stageTag.toNat = 0 ∨ 7 ≤ s.stageTag.toNat
        ∨ (s.stageTag.toNat = 3 ∧ s.stage[8].toNat / 2 ≠ 0)
        ∨ (s.stageTag.toNat = 4 ∧ s.stage[6].toNat / 2 ≠ 0)
        ∨ (s.stageTag.toNat = 5 ∧ s.stage[10].toNat = 0)
      ↔ ∃ e, decodeImage s.stageTag s.stage.toList = .error e) ∧
    ((∃ e, decodeImage s.stageTag s.stage.toList = .error e) →
      exec .push s = .next { s with rej := true, cause := .rsvd })

/-- 30 R64 to R70: the image of each drawing command as the number `IMG`, every field at the bits the tables give it. -/
def Obligations.ImageFieldsLieAtTheirBits : Prop :=
  (∀ px py : Word, imageNumber (encode (.point px py)) = 1 + 2 ^ 8 * px.toNat + 2 ^ 24 * py.toNat) ∧
  (∀ x0 y0 x1 y1 : Word, imageNumber (encode (.line x0 y0 x1 y1)) =
    2 + 2 ^ 8 * x0.toNat + 2 ^ 24 * y0.toNat + 2 ^ 40 * x1.toNat + 2 ^ 56 * y1.toNat) ∧
  (∀ x y w h : Word, imageNumber (encode (.rectF x y w h)) =
    3 + 2 ^ 8 * x.toNat + 2 ^ 24 * y.toNat + 2 ^ 40 * w.toNat + 2 ^ 56 * h.toNat + 2 ^ 72) ∧
  (∀ x y w h : Word, imageNumber (encode (.rectO x y w h)) =
    3 + 2 ^ 8 * x.toNat + 2 ^ 24 * y.toNat + 2 ^ 40 * w.toNat + 2 ^ 56 * h.toNat) ∧
  (∀ cx cy r : Word, imageNumber (encode (.circleF cx cy r)) =
    4 + 2 ^ 8 * cx.toNat + 2 ^ 24 * cy.toNat + 2 ^ 40 * r.toNat + 2 ^ 56) ∧
  (∀ cx cy r : Word, imageNumber (encode (.circleO cx cy r)) =
    4 + 2 ^ 8 * cx.toNat + 2 ^ 24 * cy.toNat + 2 ^ 40 * r.toNat) ∧
  (∀ (x y str fnt len : Word) (scale : Byte), imageNumber (encode (.text x y str fnt len scale)) =
    5 + 2 ^ 8 * x.toNat + 2 ^ 24 * y.toNat + 2 ^ 40 * str.toNat + 2 ^ 56 * fnt.toNat + 2 ^ 72 * len.toNat
      + 2 ^ 88 * scale.toNat) ∧
  (∀ buf : Word, imageNumber (encode (.raw buf)) = 6 + 2 ^ 8 * buf.toNat)

/-- 95 V-E and 30 R75: a few words written out from the spec's encodings decode to what they stand for, reserved ones to
nothing. -/
def Obligations.SpecWordsDecode : Prop :=
  decodeTableWord 40 0x0001000301 = some (.point 3 1) ∧
  decodeTableWord 40 0x8000FFFF01 = some (.point (-1) (-32768)) ∧
  decodeTableWord 72 0x000200090002000002 = some (.line 0 2 9 2) ∧
  decodeTableWord 80 0x00000300040003000A03 = some (.rectO 10 3 4 3) ∧
  decodeTableWord 80 0x01000400020006000203 = some (.rectF 2 6 2 4) ∧
  decodeTableWord 64 0x0100020005000404 = some (.circleF 4 5 2) ∧
  decodeTableWord 64 0x0000030004000804 = some (.circleO 8 4 3) ∧
  decodeTableWord 96 0x010002010002000003000205 = some (.text 2 3 0x0200 0x0100 2 1) ∧
  decodeTableWord 24 0x030006 = some (.raw 0x0300) ∧
  decodeTableWord 80 0x02000100020001000103 = none ∧
  decodeTableWord 64 0x8100030004000804 = none ∧
  decodeTableWord 96 0x000002010002000003000205 = none ∧
  decodeTableWord 24 0x000007 = none ∧
  decodeTableWord 8 0x01 = some .push ∧ decodeTableWord 8 0x02 = some .pop ∧
  decodeTableWord 8 0x03 = some .process ∧ decodeTableWord 8 0x04 = some .render

/-! ### The orientation transform and the working byte -/

/-- 40 R90: the four formulas, from `W` and `H` exactly, and the range of the results for `int16` inputs. -/
def Obligations.TransformFormulas : Prop :=
  ∀ p : Params,
    (∀ x y : Int,
      transform p 0 x y = (x, y) ∧ transform p 1 x y = ((p.width : Int) - y, (p.height : Int) - x) ∧
      transform p 2 x y = ((p.width : Int) - x, (p.height : Int) - y) ∧ transform p 3 x y = (y, x)) ∧
    (∀ (o : BitVec 2) (x y : Word),
      -32768 ≤ (transform p o x.toInt y.toInt).1 ∧ (transform p o x.toInt y.toInt).1 ≤ 65535 ∧
      -32768 ≤ (transform p o x.toInt y.toInt).2 ∧ (transform p o x.toInt y.toInt).2 ≤ 65535)

/-- 40 R95: the algebra of the four maps; the round trip of 90 C1 is not among it. -/
def Obligations.TransformAlgebra : Prop :=
  ∀ p : Params,
    (∀ x y : Int,
      transform p 0 x y = (x, y) ∧
      transform p 2 (transform p 2 x y).1 (transform p 2 x y).2 = (x, y) ∧
      transform p 3 (transform p 3 x y).1 (transform p 3 x y).2 = (x, y) ∧
      transform p 1 (transform p 1 x y).1 (transform p 1 x y).2 =
        (x + p.width - p.height, y + p.height - p.width) ∧
      transform p 3 (transform p 1 x y).1 (transform p 1 x y).2 = ((p.height : Int) - x, (p.width : Int) - y) ∧
      transform p 1 (transform p 3 x y).1 (transform p 3 x y).2 = ((p.width : Int) - x, (p.height : Int) - y)) ∧
    ((∀ x y : Int, transform p 1 (transform p 1 x y).1 (transform p 1 x y).2 = (x, y)) ↔ p.width = p.height)

/-- 40 R97: where the edge points go, and which logical points land on the device. -/
def Obligations.TransformEdges : Prop :=
  ∀ p : Params,
    transform p 2 0 0 = ((p.width : Int), (p.height : Int)) ∧
    transform p 2 1 1 = ((p.width : Int) - 1, (p.height : Int) - 1) ∧
    transform p 2 p.width p.height = (0, 0) ∧
    (∀ x y : Int, onDevice p (transform p 1 x y).1 (transform p 1 x y).2 = true ↔
      1 ≤ y ∧ y ≤ p.width ∧ 1 ≤ x ∧ x ≤ p.height) ∧
    (∀ x y : Int, onDevice p (transform p 3 x y).1 (transform p 3 x y).2 = true ↔
      0 ≤ y ∧ y ≤ (p.width : Int) - 1 ∧ 0 ≤ x ∧ x ≤ (p.height : Int) - 1) ∧
    (∀ (xg bi y : Nat) (wb : Byte) (m : List Host.Cell), xg < rowBytes p → bi < 8 → y < p.height →
      processCmd p m (.point 0 0) { wb := wb, x := 8 * (xg : Int) + bi, y := y, o := 2 } = .byte wb)

/-- 00 R6: `Mask(x)` is the byte with only bit `7 - posmod(x, 8)`, and `Clear(wb, x)` draws that pixel and changes no other. -/
def Obligations.ClearDrawsOnePixel : Prop :=
  ∀ (wb : Byte) (x : Int) (k : Nat), k < 8 →
    (((mask x).getLsbD k = true) ↔ (k : Int) = 7 - x % 8) ∧
    (clear wb x).getLsbD k = (wb.getLsbD k && !decide ((k : Int) = 7 - x % 8))

/-! ### The drawing commands: result and frame of one evaluation at the sweep position

The pixel under evaluation is `(8 * XG + BI, Y)` under `ORIENT_ACT` (10 R14, 44 R172). Every field but `wb` is as before. -/

/-- 41 R101: `POINT` owns exactly the transformed point. -/
def Obligations.PointOwnsItsPixel : Prop :=
  ∀ (px py : Word) (s : State) (x y tx ty : Int),
    x = 8 * s.xg + s.bi → y = s.y → (tx, ty) = transform s.params s.orientAct px.toInt py.toInt →
    exec (.point px py) s = .next { s with wb := if x = tx ∧ y = ty then clear s.wb x else s.wb }

/-- 41 R104: `LINE` owns the inclusive run from its transformed first endpoint, horizontal or vertical, and nothing else. -/
def Obligations.LineOwnsItsRun : Prop :=
  ∀ (x0 y0 x1 y1 : Word) (s : State) (x y tx ty : Int),
    x = 8 * s.xg + s.bi → y = s.y → (tx, ty) = transform s.params s.orientAct x0.toInt y0.toInt →
    exec (.line x0 y0 x1 y1) s = .next { s with
      wb := if (y1.toInt = y0.toInt ∧ y = ty ∧ tx ≤ x ∧ x ≤ tx + (x1.toInt - x0.toInt))
              ∨ (x1.toInt = x0.toInt ∧ x = tx ∧ ty ≤ y ∧ y ≤ ty + (y1.toInt - y0.toInt))
            then clear s.wb x else s.wb }

/-- 41 R105 (a), (b), (c): a diagonal line and a line with descending endpoints own no pixel, a degenerate one owns one. -/
def Obligations.LineCornerCases : Prop :=
  ∀ (p : Params) (x0 y0 x1 y1 : Word) (q : Pixel),
    (x0 ≠ x1 → y0 ≠ y1 → memberLine p x0 y0 x1 y1 q = false) ∧
    (x1.toInt < x0.toInt → memberLine p x0 y0 x1 y0 q = false) ∧
    (y1.toInt < y0.toInt → memberLine p x0 y0 x0 y1 q = false) ∧
    (memberLine p x0 y0 x0 y0 q = true ↔ (q.x, q.y) = transform p q.o x0.toInt y0.toInt)

/-- 41 R110: `RECT.F` owns its box, inclusive on all four edges. -/
def Obligations.FilledRectangleOwnsItsBox : Prop :=
  ∀ (x0 y0 w h : Word) (s : State) (x y tx ty : Int),
    x = 8 * s.xg + s.bi → y = s.y → (tx, ty) = transform s.params s.orientAct x0.toInt y0.toInt →
    exec (.rectF x0 y0 w h) s = .next { s with
      wb := if tx ≤ x ∧ x ≤ tx + w.toInt ∧ ty ≤ y ∧ y ≤ ty + h.toInt then clear s.wb x else s.wb }

/-- 41 R112: `RECT.O` owns the union of four edges placed from the one transformed anchor. -/
def Obligations.OutlineRectangleOwnsItsEdges : Prop :=
  ∀ (x0 y0 w h : Word) (s : State) (x y tx ty : Int),
    x = 8 * s.xg + s.bi → y = s.y → (tx, ty) = transform s.params s.orientAct x0.toInt y0.toInt →
    exec (.rectO x0 y0 w h) s = .next { s with
      wb := if ((y = ty ∨ y = ty + h.toInt) ∧ tx ≤ x ∧ x ≤ tx + w.toInt)
              ∨ ((x = tx ∨ x = tx + w.toInt) ∧ ty ≤ y ∧ y ≤ ty + h.toInt)
            then clear s.wb x else s.wb }

/-- 41 R113: the outline is the boundary of the filled box for extents that are not negative; it is the whole box where an extent
is at most 1; with a negative extent only the edges across it remain, with two nothing. -/
def Obligations.OutlineIsTheBoundary : Prop :=
  ∀ (p : Params) (x0 y0 w h : Word) (q : Pixel) (tx ty : Int), (tx, ty) = transform p q.o x0.toInt y0.toInt →
    (0 ≤ w.toInt → 0 ≤ h.toInt →
      (memberRectO p x0 y0 w h q = true ↔ memberRectF p x0 y0 w h q = true ∧
        (q.x = tx ∨ q.x = tx + w.toInt ∨ q.y = ty ∨ q.y = ty + h.toInt))) ∧
    (0 ≤ w.toInt → 0 ≤ h.toInt → w.toInt ≤ 1 ∨ h.toInt ≤ 1 →
      memberRectO p x0 y0 w h q = memberRectF p x0 y0 w h q) ∧
    (w.toInt < 0 → 0 ≤ h.toInt →
      (memberRectO p x0 y0 w h q = true ↔ (q.x = tx ∨ q.x = tx + w.toInt) ∧ ty ≤ q.y ∧ q.y ≤ ty + h.toInt)) ∧
    (0 ≤ w.toInt → h.toInt < 0 →
      (memberRectO p x0 y0 w h q = true ↔ (q.y = ty ∨ q.y = ty + h.toInt) ∧ tx ≤ q.x ∧ q.x ≤ tx + w.toInt)) ∧
    (w.toInt < 0 → h.toInt < 0 → memberRectO p x0 y0 w h q = false)

/-- 30 R78 (b): under orientation 0 an outline rectangle is its four lines, where its far corner fits an `int16`. -/
def Obligations.OutlineIsFourLines : Prop :=
  ∀ (p : Params) (x y w h : Word) (q : Pixel), q.o = 0 →
    (x + w).toInt = x.toInt + w.toInt → (y + h).toInt = y.toInt + h.toInt →
    memberRectO p x y w h q =
      (memberLine p x y (x + w) y q || memberLine p x (y + h) (x + w) (y + h) q
        || memberLine p x y x (y + h) q || memberLine p (x + w) y (x + w) (y + h) q)

/-- 41 R116, R117: `CIRCLE.F` owns the pixels with `d2 <= r*r`; the bounding check changes nothing. -/
def Obligations.FilledCircleOwnsItsDisc : Prop :=
  ∀ (cx cy r : Word) (s : State) (x y tx ty : Int),
    x = 8 * s.xg + s.bi → y = s.y → (tx, ty) = transform s.params s.orientAct cx.toInt cy.toInt →
    exec (.circleF cx cy r) s = .next { s with
      wb := if (x - tx) * (x - tx) + (y - ty) * (y - ty) ≤ (r.toNat : Int) * r.toNat then clear s.wb x else s.wb }

/-- 41 R116, R118: `CIRCLE.O` owns the ring `r*r - r + 1 <= d2 <= r*r + r`, for `r = 0` the centre. -/
def Obligations.OutlineCircleOwnsItsRing : Prop :=
  ∀ (cx cy r : Word) (s : State) (x y tx ty d2 : Int),
    x = 8 * s.xg + s.bi → y = s.y → (tx, ty) = transform s.params s.orientAct cx.toInt cy.toInt →
    d2 = (x - tx) * (x - tx) + (y - ty) * (y - ty) →
    exec (.circleO cx cy r) s = .next { s with
      wb := if (r.toNat = 0 ∧ d2 = 0)
              ∨ (1 ≤ r.toNat ∧ (r.toNat : Int) * r.toNat - r.toNat + 1 ≤ d2 ∧ d2 ≤ (r.toNat : Int) * r.toNat + r.toNat)
            then clear s.wb x else s.wb }

/-- 41 R122, 20 R45: `RAW` on the device replaces the working byte by the bitmap's byte, whatever it was and whatever the
orientation. Off the device, where no sweep is and the spec says nothing of `WB`, the new byte is the next free value: the model's
choice (log entry 8), made after what 93 U2 says of `P_OUT`. -/
def Obligations.RawReplacesTheByte : Prop :=
  ∀ (buf : Word) (s : State),
    (s.xg < rowBytes s.params → s.bi < 8 → s.y < s.params.height →
      exec (.raw buf) s = .next { s with
        wb := xread s.xmem ((buf.toNat : Int) + ((s.y * (s.params.width / 8) + s.xg : Nat) : Int)) }) ∧
    (¬ (8 * s.xg + s.bi < s.params.width ∧ s.y < s.params.height) →
      exec (.raw buf) s = .next { s with wb := Config.freeByte s.draws, draws := s.draws + 1 })

/-- 42 R130 to R141: at a pixel that tests a bit of a glyph (`GlyphAt`: character `ci`, glyph column `c`, row bit `bi` as the table of
R141 names them for the orientation) whose character is in the font's range, `TEXT` completes and draws the pixel exactly when that
bit of the column byte is set, whatever the other characters of the string are. At every other pixel (out of bounds, in a spacing
column, or with a row bit outside the byte) it completes and changes nothing, whatever the string holds. -/
def Obligations.TextDrawsTheGlyphBits : Prop :=
  ∀ (ax ay str fnt len : Word) (scale : Byte) (s : State) (x y tx ty u v : Int) (f : Font),
    scale ≠ 0 → f = readFont s.xmem fnt →
    x = 8 * s.xg + s.bi → y = s.y → (tx, ty) = transform s.params s.orientAct ax.toInt ay.toInt →
    (s.orientAct = 0 ∨ s.orientAct = 2 → u = x - tx ∧ v = y - ty) →
    (s.orientAct = 1 ∨ s.orientAct = 3 → u = y - ty ∧ v = x - tx) →
    (∀ ci c bi : Int, GlyphAt s.orientAct f len.toNat scale.toNat u v ci c bi → CharInFont s.xmem str f ci →
      exec (.text ax ay str fnt len scale) s = .next { s with
        wb := if (xread s.xmem (f.charmap + (zextByte (xread s.xmem ((str.toNat : Int) + ci)) - f.offset) * f.gw + c)).getLsbD
            bi.toNat = true
          then clear s.wb x else s.wb }) ∧
    ((∀ ci c bi : Int, ¬ GlyphAt s.orientAct f len.toNat scale.toNat u v ci c bi) →
      exec (.text ax ay str fnt len scale) s = .next s)

/-- 42 R140 (a), (b): with `LEN = 0` or `GW = 0` nothing is drawn, whatever the string and the charmap hold. -/
def Obligations.EmptyTextDrawsNothing : Prop :=
  ∀ (ax ay str fnt len : Word) (scale : Byte) (s : State), scale ≠ 0 →
    len = 0 ∨ xread s.xmem ((fnt.toNat : Int) + 2) = 0 →
    exec (.text ax ay str fnt len scale) s = .next s

/-- 42 R139, 93 U4: `TEXT` faults at every pixel that tests a bit of a glyph whose character is outside the font's range, and
completes at every other pixel; so it never faults where the whole string is in range. That the fault ends the run is the model's
reading of the spec's recorded fault (log entry 9). -/
def Obligations.TextFaultsOnlyOutsideTheFont : Prop :=
  ∀ (ax ay str fnt len : Word) (scale : Byte) (s : State) (x y tx ty u v : Int) (f : Font),
    scale ≠ 0 → f = readFont s.xmem fnt →
    x = 8 * s.xg + s.bi → y = s.y → (tx, ty) = transform s.params s.orientAct ax.toInt ay.toInt →
    (s.orientAct = 0 ∨ s.orientAct = 2 → u = x - tx ∧ v = y - ty) →
    (s.orientAct = 1 ∨ s.orientAct = 3 → u = y - ty ∧ v = x - tx) →
    (∀ ci c bi : Int, GlyphAt s.orientAct f len.toNat scale.toNat u v ci c bi → ¬ CharInFont s.xmem str f ci →
      exec (.text ax ay str fnt len scale) s = .fault .glyphOutsideFont) ∧
    ((∀ ci c bi : Int, GlyphAt s.orientAct f len.toNat scale.toNat u v ci c bi → CharInFont s.xmem str f ci) →
      ∃ t, exec (.text ax ay str fnt len scale) s = .next t) ∧
    (StringInFont s.xmem str fnt len → ∃ t, exec (.text ax ay str fnt len scale) s = .next t)

/-- 20 R48, R49: what an evaluation depends on. The geometric commands read no XMEM; `RAW` reads one byte; `TEXT` reads its
descriptor, its string and its font's charmap. -/
def Obligations.EvaluationReadsOnlyItsBytes : Prop :=
  ∀ (p : Params) (m m' : List Host.Cell) (q : Pixel),
    (∀ px py : Word, processCmd p m (.point px py) q = processCmd p m' (.point px py) q) ∧
    (∀ a b c d : Word, processCmd p m (.line a b c d) q = processCmd p m' (.line a b c d) q ∧
      processCmd p m (.rectF a b c d) q = processCmd p m' (.rectF a b c d) q ∧
      processCmd p m (.rectO a b c d) q = processCmd p m' (.rectO a b c d) q ∧
      processCmd p m (.circleF a b c) q = processCmd p m' (.circleF a b c) q ∧
      processCmd p m (.circleO a b c) q = processCmd p m' (.circleO a b c) q) ∧
    (∀ buf : Word,
      xread m ((buf.toNat : Int) + q.y * (p.width / 8 : Nat) + q.x / 8) =
        xread m' ((buf.toNat : Int) + q.y * (p.width / 8 : Nat) + q.x / 8) →
      processCmd p m (.raw buf) q = processCmd p m' (.raw buf) q) ∧
    (∀ (x y str fnt len : Word) (scale : Byte),
      (∀ k : Nat, k < 6 → xread m ((fnt.toNat : Int) + k) = xread m' ((fnt.toNat : Int) + k)) →
      (∀ k : Nat, k < len.toNat → xread m ((str.toNat : Int) + k) = xread m' ((str.toNat : Int) + k)) →
      (∀ k : Int, 0 ≤ k → k < (readFont m fnt).count * (readFont m fnt).gw →
        xread m ((readFont m fnt).charmap + k) = xread m' ((readFont m fnt).charmap + k)) →
      processCmd p m (.text x y str fnt len scale) q = processCmd p m' (.text x y str fnt len scale) q)

/-- 41 R125: the laws of the clear-only commands: monotone, local, idempotent, commutative, the identity outside the geometry. -/
def Obligations.ClearOnlyLaws : Prop :=
  ∀ (p : Params) (m : List Host.Cell) (c : Instr) (q : Pixel) (b : Byte), c.isClearOnly = true →
    processCmd p m c q = .byte b →
    b &&& q.wb = b ∧
    (∀ k : Nat, (k : Int) ≠ 7 - q.x % 8 → b.getLsbD k = q.wb.getLsbD k) ∧
    processCmd p m c { q with wb := b } = .byte b ∧
    (memberCmd p m c q = some false → b = q.wb) ∧
    (∀ (c' : Instr) (b' : Byte), c'.isClearOnly = true → processCmd p m c' q = .byte b' →
      ∃ r, processCmd p m c' { q with wb := b } = .byte r ∧ processCmd p m c { q with wb := b' } = .byte r)

/-- 00 R9, 41 R100: a drawing command's evaluation changes the working byte and nothing else (the count of free values apart,
which only `RAW` off the device advances). -/
def Obligations.DrawingFrame : Prop :=
  ∀ (i : Instr) (s t : State), i.isDrawing = true → exec i s = .next t →
    t = { s with wb := t.wb, draws := t.draws } ∧ (i.isClearOnly = true → t.draws = s.draws)

/-! ### The command buffer -/

/-- 43 R151: an accepted PUSH writes slot SIZE, its TAG and the payload bytes of its footprint, increments SIZE and clears REJ and
CAUSE; nothing else changes. That the slot's payload bytes beyond the footprint, unspecified in 10 R11, keep what they held is the
model's choice (log entry 21). -/
def Obligations.PushAppends : Prop :=
  ∀ (s : State) (i : Instr), decodeImage s.stageTag s.stage.toList = .ok i →
    footprint s.stageTag ≤ s.params.slotSize → s.size.toNat < s.params.capacity →
    ∃ t, exec .push s = .next t ∧
      t = { s with slots := t.slots, size := s.size + 1, rej := false, cause := .none } ∧
      t.size.toNat = s.size.toNat + 1 ∧
      (slotAt t s.size.toNat).tag = s.stageTag ∧
      (∀ k, k < footprint s.stageTag → (slotAt t s.size.toNat).payload[k]? = s.stage.toList[k]?) ∧
      (∀ k, footprint s.stageTag ≤ k →
        (slotAt t s.size.toNat).payload[k]? = (slotAt s s.size.toNat).payload[k]?) ∧
      (∀ j, j ≠ s.size.toNat → slotAt t j = slotAt s j)

/-- 60 R192, 43 R151: the three causes in their priority; a rejected PUSH changes REJ and CAUSE and nothing else. -/
def Obligations.PushRejects : Prop :=
  ∀ s : State,
    ((∃ e, decodeImage s.stageTag s.stage.toList = .error e) →
      exec .push s = .next { s with rej := true, cause := .rsvd }) ∧
    ((∃ i, decodeImage s.stageTag s.stage.toList = .ok i) → s.params.slotSize < footprint s.stageTag →
      exec .push s = .next { s with rej := true, cause := .tooBig }) ∧
    ((∃ i, decodeImage s.stageTag s.stage.toList = .ok i) → footprint s.stageTag ≤ s.params.slotSize →
      s.size.toNat = s.params.capacity → exec .push s = .next { s with rej := true, cause := .full })

/-- 20 R54, 30 R63: right after an accepted PUSH its slot decodes to the command that was staged, and from then on a slot that is
below SIZE before and after a step decodes after it as before it. -/
def Obligations.PushedCommandIsStored : Prop :=
  (∀ (s t : State) (i : Instr), i.WellFormed → i.isDrawing = true → s.stageTag = leadByte i →
    (encodePayload i).isPrefixOf s.stage.toList = true → exec .push s = .next t → t.rej = false →
    decodeSlot t s.size.toNat = .ok i) ∧
  (∀ (s t : State) (n : Nat), step s = .next t → n < s.size.toNat → n < t.size.toNat → decodeSlot t n = decodeSlot s n)

/-- 43 R153: POP. -/
def Obligations.PopRemovesTheLast : Prop :=
  ∀ s : State,
    (0 < s.size.toNat → ∃ t, exec .pop s = .next t ∧ t = { s with size := t.size } ∧ t.size.toNat + 1 = s.size.toNat) ∧
    (s.size.toNat = 0 → exec .pop s = .next s)

/-- 43 R156, 93 U1, U2, U4: PROCESS evaluates slot `P_IDX` at the host's pixel under the live ORIENT and changes `P_OUT` alone; an
index at or above SIZE, and a `RAW` off the device, leave in `P_OUT` the next free value, of which nothing is known: no stale slot is
evaluated (log entries 7, 8; between 93 U1's any value and fault the model's choice is any value). It completes with the evaluation's
byte for every command whose string is in its font, at every pixel, for a `RAW` at every pixel of the device. -/
def Obligations.ProcessEvaluatesOneSlot : Prop :=
  ∀ s : State,
    (∀ c b, s.pIdx.toNat < s.size.toNat → decodeSlot s s.pIdx.toNat = .ok c →
      processCmd s.params s.xmem c { wb := s.pWb, x := s.pX.toInt, y := s.pY.toInt, o := s.orient } = .byte b →
      exec .process s = .next { s with pOut := b }) ∧
    (∀ c, s.pIdx.toNat < s.size.toNat → decodeSlot s s.pIdx.toNat = .ok c → CommandInFont s.xmem c →
      c.isClearOnly = true
        ∨ (0 ≤ s.pX.toInt ∧ s.pX.toInt < s.params.width ∧ 0 ≤ s.pY.toInt ∧ s.pY.toInt < s.params.height) →
      ∃ b, processCmd s.params s.xmem c { wb := s.pWb, x := s.pX.toInt, y := s.pY.toInt, o := s.orient } = .byte b ∧
        exec .process s = .next { s with pOut := b }) ∧
    (∀ buf, s.pIdx.toNat < s.size.toNat → decodeSlot s s.pIdx.toNat = .ok (.raw buf) →
      s.pX.toInt < 0 ∨ (s.params.width : Int) ≤ s.pX.toInt ∨ s.pY.toInt < 0 ∨ (s.params.height : Int) ≤ s.pY.toInt →
      exec .process s = .next { s with pOut := Config.freeByte s.draws, draws := s.draws + 1 }) ∧
    (s.size.toNat ≤ s.pIdx.toNat →
      exec .process s = .next { s with pOut := Config.freeByte s.draws, draws := s.draws + 1 })

/-- 43 R156: PROCESS is the function RENDER applies at every step: at the sweep's own command, pixel and byte the two give the
same byte, or the same fault. -/
def Obligations.ProcessIsTheSweepsFunction : Prop :=
  ∀ (s : State) (c : Instr), decodeSlot s s.ci = .ok c → s.pIdx.toNat = s.ci → s.ci < s.size.toNat →
    s.pWb = s.wb → s.pX.toInt = 8 * s.xg + s.bi → s.pY.toInt = s.y → s.orient = s.orientAct →
    (∀ t, exec c s = .next t → exec .process s = .next { s with pOut := t.wb, draws := t.draws }) ∧
    (∀ f, exec c s = .fault f → exec .process s = .fault f)

/-! ### A step -/

/-- 30 R75, 44 R172: a step runs the decoded instruction. A code HOST writes to an idle block's `CMD` runs its host command on the
state with that access consumed; in a pass the sweep runs the drawing command of slot CI, and then advances `BI` inside `CI`. The
model's choices in it: a value wider than a byte counts by its low byte (log entry 12), one evaluation is one step (log entry 10), and
a host access takes a step of its own (log entry 22). -/
def Obligations.StepRunsTheDecodedInstruction : Prop :=
  (∀ (s : State) (v : Word) (rest : List EnvMove) (i : Instr), s.busy = false → s.env = .write 0x00 v :: rest →
    decodeCode (v.setWidth 8) = .ok i → step s = exec i { s with env := rest }) ∧
  (∀ (s u : State) (i : Instr), s.busy = true →
    (s.env = [] ∧ u = s) ∨ (∃ rest, s.env = .engine :: rest ∧ u = { s with env := rest }) →
    s.ci < s.size.toNat → decodeSlot s s.ci = .ok i →
    step s = match exec i u with
      | .next t => .next (if t.bi < 7 then { t with bi := t.bi + 1 } else { t with bi := 0, ci := t.ci + 1 })
      | .fault f => .fault f
      | .refused r => .refused r)

/-- 30 R75, R76: which byte on `CMD` starts which host command, and that every other byte, and every byte while BUSY is 1, is
ignored. That a wider value on `CMD` counts by its low byte is the model's choice (log entry 12). -/
def Obligations.CommandCodes : Prop :=
  ∀ (s : State) (v : Word) (rest : List EnvMove), s.env = .write 0x00 v :: rest →
    (s.busy = false → v.toNat % 256 = 1 → step s = exec .push { s with env := rest }) ∧
    (s.busy = false → v.toNat % 256 = 2 → step s = exec .pop { s with env := rest }) ∧
    (s.busy = false → v.toNat % 256 = 3 → step s = exec .process { s with env := rest }) ∧
    (s.busy = false → v.toNat % 256 = 4 → step s = exec .render { s with env := rest }) ∧
    (s.busy = false → v.toNat % 256 = 0 ∨ 5 ≤ v.toNat % 256 → step s = .next { s with env := rest }) ∧
    (s.busy = true → step s = .next { s with env := rest })

/-- 10 R22: while BUSY is 1 a host write changes no state and starts no command, and a read returns the current value, BUSY in
bit 0 of STATUS. -/
def Obligations.BusyIgnoresHostWrites : Prop :=
  ∀ (s : State) (rest : List EnvMove) (reg : Nat) (v : Word), s.busy = true →
    (s.env = .write reg v :: rest → step s = .next { s with env := rest }) ∧
    (s.env = .read reg :: rest →
      step s = .next { s with env := rest, reads := s.reads ++ [(reg, readReg s reg)] } ∧
      (reg = 0x01 → (readReg s reg).toNat % 2 = 1))

/-- 10 R17, R20, R23: what a read of each register returns, and that it changes nothing else. -/
def Obligations.HostReads : Prop :=
  ∀ (s : State) (rest : List EnvMove) (reg : Nat), s.env = .read reg :: rest →
    ∃ r : Word, step s = .next { s with env := rest, reads := s.reads ++ [(reg, r)] } ∧
      (reg = 0x00 → r = 0) ∧
      (reg = 0x01 → r.toNat = (if s.busy then 1 else 0) + (if s.rej then 2 else 0) +
        (match s.cause with | .none => 0 | .full => 4 | .tooBig => 8 | .rsvd => 12)) ∧
      (reg = 0x02 → r.toNat = s.orient.toNat) ∧
      (reg = 0x03 → r = s.size) ∧
      (reg = 0x04 → r.toNat = s.params.capacity) ∧
      (reg = 0x05 → r.toNat = s.params.slotSize) ∧
      (reg = 0x06 → r.toNat = s.params.width) ∧
      (reg = 0x07 → r.toNat = s.params.height) ∧
      (reg = 0x08 → r.toNat = s.stageTag.toNat) ∧
      (reg = 0x09 → r = s.pIdx) ∧
      (reg = 0x0A → r.toNat = s.pWb.toNat) ∧
      (reg = 0x0B → r = s.pX) ∧ (reg = 0x0C → r = s.pY) ∧
      (reg = 0x0D → r.toNat = s.pOut.toNat) ∧
      (reg = 0x0E ∨ reg = 0x0F ∨ 0x1B ≤ reg → r = 0) ∧
      (∀ k : Fin 11, reg = 0x10 + k.val → r.toNat = (s.stage[k.val]).toNat)

/-- 10 R20, R23: what a write of each register other than `CMD` does while the block is idle: the named register takes the low bits
of its width (for a wider value the model's choice, log entry 12), read-only and reserved numbers change nothing. -/
def Obligations.HostWrites : Prop :=
  ∀ (s : State) (rest : List EnvMove) (reg : Nat) (v : Word), s.busy = false → s.env = .write reg v :: rest →
    (reg = 0x02 → step s = .next { s with env := rest, orient := v.setWidth 2 }) ∧
    (reg = 0x08 → step s = .next { s with env := rest, stageTag := v.setWidth 8 }) ∧
    (reg = 0x09 → step s = .next { s with env := rest, pIdx := v }) ∧
    (reg = 0x0A → step s = .next { s with env := rest, pWb := v.setWidth 8 }) ∧
    (reg = 0x0B → step s = .next { s with env := rest, pX := v }) ∧
    (reg = 0x0C → step s = .next { s with env := rest, pY := v }) ∧
    (∀ k : Fin 11, reg = 0x10 + k.val → ∃ st : Vector Byte 11, step s = .next { s with env := rest, stage := st } ∧
      ∀ j : Fin 11, st[j.val] = if j = k then v.setWidth 8 else s.stage[j.val]) ∧
    (reg = 0x01 ∨ (0x03 ≤ reg ∧ reg ≤ 0x07) ∨ (0x0D ≤ reg ∧ reg ≤ 0x0F) ∨ 0x1B ≤ reg →
      step s = .next { s with env := rest })

/-- 10 R25, 20 R43: the byte HOST puts into XMEM while no pass runs is what a later read returns at that address, and only there.
While a pass runs the move breaks 70 R214, and the step faults: the model's choice (log entry 5). -/
def Obligations.HostXmemReadBack : Prop :=
  ∀ (s : State) (rest : List EnvMove) (a : Word) (b : Byte), s.env = .hostXmem a b :: rest →
    (s.busy = false → ∃ t, step s = .next t ∧ t = { s with env := rest, xmem := t.xmem } ∧
      ∀ k : Int, xread t.xmem k = if k % 65536 = a.toNat then b else xread s.xmem k) ∧
    (s.busy = true → step s = .fault .xmemChangedDuringPass)

/-- 70 R220: a stall of SINK holds back the emission that is due, and nothing else; a stall when none is due is no stall (log entry
19). -/
def Obligations.StallHoldsTheEmission : Prop :=
  ∀ (s : State) (rest : List EnvMove), s.env = .sinkStall :: rest →
    (s.busy = true → s.size.toNat ≤ s.ci → step s = .next { s with env := rest }) ∧
    (s.busy = false ∨ s.ci < s.size.toNat → step s = step { s with env := .engine :: rest })

/-- 10 R28, 70 R210, R211: the reset event puts the block's state at its reset values whatever went before, a pass in progress
abandoned; OUT starts again, and the parameters, XMEM and the environment's moves are not the block's and stay (the model's choice,
log entry 14). -/
def Obligations.ResetEventAbandonsThePass : Prop :=
  ∀ (s : State) (rest : List EnvMove), s.env = .reset :: rest →
    ∃ t, step s = .next t ∧ t.size = 0 ∧ t.orient = 0 ∧ t.orientAct = 0 ∧ statusByte t = 0 ∧ t.out = [] ∧
      t.params = s.params ∧ t.xmem = s.xmem ∧ t.env = rest ∧
      step { t with env := [] } = .next { t with env := [] }

/-- 10 R28, 70 R211: the values the spec gives for reset, and that the block then waits for HOST (log entry 11). -/
def Obligations.ResetState : Prop :=
  State.reset.size = 0 ∧ State.reset.orient = 0 ∧ State.reset.orientAct = 0 ∧ statusByte State.reset = 0 ∧
  State.reset.out = [] ∧ readReg State.reset 0x04 = BitVec.ofNat 16 State.reset.params.capacity ∧
  step State.reset = .next State.reset

/-! ### A render pass -/

/-- 44 R170, R171, R172: RENDER sets BUSY and latches the orientation, and the sweep stands at the first pixel with a blank byte; no
other state changes. That RENDER's own step ends here, the rest of its pass being ENGINE's later steps, is the model's choice (log
entry 10); RenderPassIsTheLoopNest states the whole pass. -/
def Obligations.RenderStartsThePass : Prop :=
  ∀ s : State, ∃ t, exec .render s = .next t ∧ t.busy = true ∧ t.orientAct = s.orient ∧
    t.y = 0 ∧ t.xg = 0 ∧ t.ci = 0 ∧ t.bi = 0 ∧ t.wb = 0xFF ∧
    t = { s with busy := true, orientAct := t.orientAct, y := t.y, xg := t.xg, ci := t.ci, bi := t.bi, wb := t.wb }

/-- 20 R47, 44 R172, 70 R223: when every command is folded the byte is emitted, and the next position is the next byte column, the
next row, or the end of the pass, where BUSY returns to 0 and `WB` and the counters become free values (log entries 27, 29). The
environment has no move left, or gives ENGINE its turn (log entry 22); an emission is a step of its own (log entry 10). -/
def Obligations.EmissionAdvancesThePass : Prop :=
  ∀ s u : State, s.busy = true →
    (s.env = [] ∧ u = s) ∨ (∃ rest, s.env = .engine :: rest ∧ u = { s with env := rest }) → s.size.toNat ≤ s.ci →
    (s.xg + 1 < s.params.width / 8 → step s = .next
      { u with out := s.out ++ [s.wb], xg := s.xg + 1, ci := 0, bi := 0, wb := 0xFF }) ∧
    (s.params.width / 8 ≤ s.xg + 1 → s.y + 1 < s.params.height → step s = .next
      { u with out := s.out ++ [s.wb], y := s.y + 1, xg := 0, ci := 0, bi := 0, wb := 0xFF }) ∧
    (s.params.width / 8 ≤ s.xg + 1 → s.params.height ≤ s.y + 1 → step s = .next
      { u with
        busy := false
        out := s.out ++ [s.wb]
        wb := Config.freeByte s.draws
        y := Config.freeCount s.draws
        xg := Config.freeCount (s.draws + 1)
        ci := Config.freeCount (s.draws + 2)
        bi := Config.freeCount (s.draws + 3)
        draws := s.draws + 4 })

/-- 44 R172, R174, R176: the steps of a pass compute the loop nest of R172. From any state of the invariant with ENGINE idle and no
pending move, RENDER is accepted, and after `(W/8) * H * (8 * SIZE + 1)` steps BUSY is 0 and OUT has grown by exactly the bytes of
the loop nest; buffer, ORIENT, STATUS.REJ and CAUSE, the host registers and XMEM are as before. Where the loop nest has no value a
step of the pass faults on a character outside its font (log entry 9). The number of steps is the model's choice, one for each
evaluation and each emission (log entry 10). -/
def Obligations.RenderPassIsTheLoopNest : Prop :=
  ∀ s : State, Inv s → s.busy = false → s.env = [] →
    ∃ t₀, exec .render s = .next t₀ ∧
      match renderBytes s with
      | some bs => ∃ t, Sys2Proof.core.run (passSteps s) t₀ = .next t ∧ t.busy = false ∧ t.out = s.out ++ bs ∧
          t = { s with orientAct := s.orient, out := t.out, wb := t.wb, y := t.y, xg := t.xg, ci := t.ci, bi := t.bi,
                       draws := t.draws }
      | none => Sys2Proof.core.run (passSteps s) t₀ = .fault .glyphOutsideFont

/-- 44 R170, R174: "a render pass cannot fail": where every string of the buffer is in its font's range the loop nest has a value,
of exactly `(W/8) * H` bytes. -/
def Obligations.RenderCannotFail : Prop :=
  ∀ s : State, Inv s →
    (∀ i < s.size.toNat, ∀ c, decodeSlot s i = .ok c → CommandInFont s.xmem c) →
    ∃ bs, renderBytes s = some bs ∧ bs.length = s.params.width / 8 * s.params.height

/-- 44 R173: rows top to bottom, byte columns left to right: the byte for row `Y` and byte column `XG` is number
`Y * (W/8) + XG` of the pass. -/
def Obligations.EmissionOrder : Prop :=
  ∀ (p : Params) (m : List Host.Cell) (o : BitVec 2) (cmds : List Instr) (bs : List Byte),
    passBytes p m o cmds = some bs →
    bs.length = p.width / 8 * p.height ∧
    ∀ y xg : Nat, y < p.height → xg < p.width / 8 →
      ∃ b, passByte p m o cmds y xg = some b ∧ bs[y * (p.width / 8) + xg]? = some b

/-- 44 R175: the closed form of an output byte: the last `RAW`'s byte, or blank, with every pixel drawn that a clear-only command
after it owns. -/
def Obligations.OutputByteClosedForm : Prop :=
  ∀ (p : Params) (m : List Host.Cell) (o : BitVec 2) (cmds : List Instr) (y xg : Nat) (b : Byte),
    (∀ c ∈ cmds, c.isDrawing = true) → y < p.height → xg < rowBytes p → passByte p m o cmds y xg = some b →
    ∀ k : Nat, k < 8 →
      (b.getLsbD (7 - k) = false ↔
        (baseByte p m cmds y xg).getLsbD (7 - k) = false ∨
        ∃ c ∈ afterLastRaw cmds,
          memberCmd p m c { wb := 0xFF, x := 8 * (xg : Int) + k, y := y, o := o } = some true)

/-- 44 R175, 70 R217: without `RAW` the output does not depend on the order of the commands. -/
def Obligations.OrderOfClearOnlyCommands : Prop :=
  ∀ (p : Params) (m : List Host.Cell) (o : BitVec 2) (cmds cmds' : List Instr),
    (∀ c ∈ cmds, c.isClearOnly = true ∧ c.WellFormed ∧ CommandInFont m c) → cmds.Perm cmds' →
    passBytes p m o cmds = passBytes p m o cmds'

/-- 41 R123, 90 C4: a buffer whose last command is a `RAW` renders the bitmap byte for byte, whatever comes before it, where the
commands before it do not fault. -/
def Obligations.RawLastReproducesTheBitmap : Prop :=
  ∀ (p : Params) (m : List Host.Cell) (o : BitVec 2) (cmds : List Instr) (buf : Word),
    (∃ bs, passBytes p m o cmds = some bs) →
    passBytes p m o (cmds ++ [.raw buf]) =
      some ((List.range (p.width / 8 * p.height)).map (fun k : Nat => xread m ((buf.toNat : Int) + (k : Int))))

/-- 44 R177 (a): with an empty buffer every byte is blank. -/
def Obligations.EmptyBufferRendersBlank : Prop :=
  ∀ s : State, s.size = 0 → renderBytes s = some (List.replicate (s.params.width / 8 * s.params.height) 0xFF)

/-- 44 R179: the lanes of a clear-only command may be taken in any order. -/
def Obligations.LanesAreIndependent : Prop :=
  ∀ (p : Params) (m : List Host.Cell) (o : BitVec 2) (y xg : Nat) (c : Instr) (lanes lanes' : List Nat) (wb : Byte),
    c.isClearOnly = true → c.WellFormed → CommandInFont m c → lanes.Perm lanes' →
    foldLanes p m o y xg c lanes wb = foldLanes p m o y xg c lanes' wb

/-- 44 R176: a pass is a function of `W`, `H`, ORIENT, SIZE, the valid slots and XMEM: two idle states that agree on those append
the same bytes, or fault alike, whatever else differs in them. -/
def Obligations.PassDependsOnlyOnItsInputs : Prop :=
  ∀ s s' : State, Inv s → Inv s' → s.busy = false → s'.busy = false → s.env = [] → s'.env = [] →
    s.params.width = s'.params.width → s.params.height = s'.params.height → s.orient = s'.orient → s.size = s'.size →
    (∀ i < s.size.toNat, decodeSlot s i = decodeSlot s' i) → s.xmem = s'.xmem →
    ∃ t₀ t₀', exec .render s = .next t₀ ∧ exec .render s' = .next t₀' ∧
      ((∃ t t' bs, Sys2Proof.core.run (passSteps s) t₀ = .next t ∧ Sys2Proof.core.run (passSteps s) t₀' = .next t' ∧
          t.out = s.out ++ bs ∧ t'.out = s'.out ++ bs ∧ t.busy = false ∧ t'.busy = false) ∨
        (Sys2Proof.core.run (passSteps s) t₀ = .fault .glyphOutsideFont ∧
          Sys2Proof.core.run (passSteps s) t₀' = .fault .glyphOutsideFont))

/-! ### The whole machine -/

/-- 10 R27, with the ranges of R12, R14, R16 and the canonical forms: every step keeps the invariant. -/
def Obligations.StepKeepsTheInvariant : Prop :=
  ∀ s t : State, Inv s → step s = .next t → Inv t

/-- 10 R27, R28: the reset state has the invariant. -/
def Obligations.ResetHasTheInvariant : Prop := Inv State.reset

/-- 43 R158, 10 R27: dispatch cannot fail: no step from a state of the invariant is refused. -/
def Obligations.DispatchCannotFail : Prop :=
  ∀ (s : State) (r : Refusal), Inv s → step s ≠ .refused r

/-- 93 U4, U5, 60 R194: the two ways a step of the invariant's states can fault, both broken contracts of HOST (log entries 5,
9). -/
def Obligations.OnlyHostsContractsFault : Prop :=
  ∀ (s : State) (f : Fault), Inv s → step s = .fault f →
    (f = .xmemChangedDuringPass ∧ s.busy = true ∧ ∃ a b rest, s.env = .hostXmem a b :: rest) ∨
    (f = .glyphOutsideFont ∧ ∃ i < s.size.toNat, ∃ c, decodeSlot s i = .ok c ∧ ¬ CommandInFont s.xmem c)

/-- 10 R11, R17, R30, 60 R193: the slot file, REJ and CAUSE change only under PUSH (and at reset). -/
def Obligations.OnlyPushWritesSlotsAndFlags : Prop :=
  ∀ s t : State, step s = .next t → t.slots ≠ s.slots ∨ t.rej ≠ s.rej ∨ t.cause ≠ s.cause →
    s.env.head? = some .reset ∨
      (s.busy = false ∧ ∃ v rest, s.env = .write 0x00 v :: rest ∧ decodeCode (v.setWidth 8) = .ok .push)

/-- 10 R12: SIZE changes only under PUSH, by one up, and POP, by one down (and at reset). -/
def Obligations.OnlyPushAndPopChangeSize : Prop :=
  ∀ s t : State, Inv s → step s = .next t → t.size ≠ s.size →
    s.env.head? = some .reset ∨
      ∃ v rest, s.busy = false ∧ s.env = .write 0x00 v :: rest ∧
        ((decodeCode (v.setWidth 8) = .ok .push ∧ t.size.toNat = s.size.toNat + 1) ∨
          (decodeCode (v.setWidth 8) = .ok .pop ∧ t.size.toNat + 1 = s.size.toNat))

/-- 10 R24, 20 R47, 70 R211: OUT grows by the working byte at an emission of a pass and by nothing else; only reset empties it. -/
def Obligations.OnlyEmissionsReachOut : Prop :=
  ∀ s t : State, step s = .next t →
    t.out = s.out ∨ (s.busy = true ∧ s.size.toNat ≤ s.ci ∧ t.out = s.out ++ [s.wb]) ∨
      (s.env.head? = some .reset ∧ t.out = [])

/-- 20 R43, 10 R21: the block never writes XMEM, and the parameters never change. -/
def Obligations.BlockNeverWritesXmem : Prop :=
  (∀ (i : Instr) (s t : State), exec i s = .next t → t.xmem = s.xmem ∧ t.params = s.params) ∧
  (∀ s t : State, step s = .next t → t.params = s.params ∧
    (t.xmem = s.xmem ∨ (s.busy = false ∧ ∃ a b rest, s.env = .hostXmem a b :: rest)))

/-- 10 R13, 10 R19, 43 R156: `WB` is written by RENDER alone, `P_OUT` by PROCESS alone (and at reset). -/
def Obligations.WorkingByteAndResultWriters : Prop :=
  ∀ s t : State, step s = .next t →
    (t.wb ≠ s.wb → s.busy = true ∨ s.env.head? = some .reset ∨
      ∃ v rest, s.env = .write 0x00 v :: rest ∧ decodeCode (v.setWidth 8) = .ok .render) ∧
    (t.pOut ≠ s.pOut → s.env.head? = some .reset ∨
      (s.busy = false ∧ ∃ v rest, s.env = .write 0x00 v :: rest ∧ decodeCode (v.setWidth 8) = .ok .process))
end

