-- ==== Sys2Proof/Laws/Decode.lean ====
section
/-! SUPPORT. The small laws of the byte-order helpers and of the decoders. -/
namespace Sys2Proof

@[simp] theorem le16_lo_hi (w : Word) : le16 (loByte w) (hiByte w) = w := by
  apply BitVec.eq_of_toNat_eq
  have := w.isLt
  simp only [le16, loByte, hiByte, BitVec.toNat_append, BitVec.toNat_setWidth, BitVec.toNat_ushiftRight]
  rw [← Nat.shiftLeft_add_eq_or_of_lt (Nat.mod_lt _ (by decide))]
  simp only [Nat.shiftLeft_eq, Nat.shiftRight_eq_div_pow]
  omega

@[simp] theorem loByte_le16 (lo hi : Byte) : loByte (le16 lo hi) = lo := by
  apply BitVec.eq_of_toNat_eq
  have := lo.isLt; have := hi.isLt
  simp only [le16, loByte, BitVec.toNat_append, BitVec.toNat_setWidth]
  rw [← Nat.shiftLeft_add_eq_or_of_lt lo.isLt]
  simp only [Nat.shiftLeft_eq]
  omega

@[simp] theorem hiByte_le16 (lo hi : Byte) : hiByte (le16 lo hi) = hi := by
  apply BitVec.eq_of_toNat_eq
  have := lo.isLt; have := hi.isLt
  simp only [le16, hiByte, BitVec.toNat_append, BitVec.toNat_setWidth, BitVec.toNat_ushiftRight]
  rw [← Nat.shiftLeft_add_eq_or_of_lt lo.isLt]
  simp only [Nat.shiftLeft_eq, Nat.shiftRight_eq_div_pow]
  omega

/-- A field's bytes as numbers. -/
theorem loByte_add_hiByte (w : Word) : (loByte w).toNat + 256 * (hiByte w).toNat = w.toNat := by
  have := w.isLt
  simp only [loByte, hiByte, BitVec.toNat_setWidth, BitVec.toNat_ushiftRight, Nat.shiftRight_eq_div_pow]
  omega

theorem footprint_le (tag : Byte) : footprint tag ≤ maxFoot := by
  unfold footprint maxFoot; split <;> omega

/-- What the decoder of slot images can answer: the TAG is one of six, and the answer is that format's. -/
theorem decodeImage_cases {tag : Byte} {pl : List Byte} {i : Instr} (h : decodeImage tag pl = .ok i) :
    (tag = 1 ∧ decodePoint pl = .ok i) ∨ (tag = 2 ∧ decodeLine pl = .ok i) ∨ (tag = 3 ∧ decodeRect pl = .ok i) ∨
      (tag = 4 ∧ decodeCircle pl = .ok i) ∨ (tag = 5 ∧ decodeText pl = .ok i) ∨ (tag = 6 ∧ decodeRaw pl = .ok i) := by
  unfold decodeImage at h
  split at h <;> first | cases h | skip
  all_goals
    rename_i ht
    have : tag = BitVec.ofNat 8 tag.toNat := by simp
    rw [ht] at this
    simp [this, h]

/-- A slot image is never a host command. -/
theorem decodeImage_isDrawing {tag : Byte} {pl : List Byte} {i : Instr} (h : decodeImage tag pl = .ok i) :
    i.isDrawing = true := by
  obtain ⟨-, h⟩ | ⟨-, h⟩ | ⟨-, h⟩ | ⟨-, h⟩ | ⟨-, h⟩ | ⟨-, h⟩ := decodeImage_cases h
  · unfold decodePoint at h; split at h <;> cases h; rfl
  · unfold decodeLine at h; split at h <;> cases h; rfl
  · unfold decodeRect rectByFlags at h; repeat' split at h
    all_goals cases h
    all_goals rfl
  · unfold decodeCircle circleByFlags at h; repeat' split at h
    all_goals cases h
    all_goals rfl
  · unfold decodeText textByScale at h; repeat' split at h
    all_goals cases h
    rfl
  · unfold decodeRaw at h; split at h <;> cases h; rfl

/-- What the decoder of host command codes can answer. -/
theorem decodeCode_cases {c : Byte} {i : Instr} (h : decodeCode c = .ok i) :
    (c = 1 ∧ i = .push) ∨ (c = 2 ∧ i = .pop) ∨ (c = 3 ∧ i = .process) ∨ (c = 4 ∧ i = .render) := by
  unfold decodeCode at h
  split at h <;> cases h
  all_goals
    rename_i hc
    have : c = BitVec.ofNat 8 c.toNat := by simp
    rw [hc] at this
    simp [this]

end Sys2Proof
end

