-- ==== Sys2Proof/Laws/Operands.lean ====
section
/-! SUPPORT. The small laws of what the commands compute with, and each membership predicate as a proposition. -/
namespace Sys2Proof.Machine

@[simp] theorem transform_0 (p : Params) (x y : Int) : transform p 0 x y = (x, y) := rfl
@[simp] theorem transform_1 (p : Params) (x y : Int) : transform p 1 x y = ((p.width : Int) - y, (p.height : Int) - x) := rfl
@[simp] theorem transform_2 (p : Params) (x y : Int) : transform p 2 x y = ((p.width : Int) - x, (p.height : Int) - y) := rfl
@[simp] theorem transform_3 (p : Params) (x y : Int) : transform p 3 x y = (y, x) := rfl

/-- The four orientations (10 R15). -/
theorem orientation_cases (o : BitVec 2) : o = 0 ∨ o = 1 ∨ o = 2 ∨ o = 3 := by
  have h := o.isLt
  have : o = BitVec.ofNat 2 o.toNat := by simp
  generalize o.toNat = n at *
  interval_cases n <;> simp_all

theorem sext_inj {a b : Word} : sext a = sext b ↔ a = b := BitVec.toInt_inj

theorem sext_bounds (w : Word) : -32768 ≤ sext w ∧ sext w < 32768 := ⟨w.le_toInt, w.toInt_lt⟩

theorem zext_bounds (w : Word) : 0 ≤ zext w ∧ zext w < 65536 := by
  have := w.isLt; unfold zext; omega

theorem zextByte_bounds (b : Byte) : 0 ≤ zextByte b ∧ zextByte b < 256 := by
  have := b.isLt; unfold zextByte; omega

/-- The bits of the pixel's mask (00 R6). -/
theorem mask_getLsbD (x : Int) (k : Nat) : (mask x).getLsbD k = decide ((k : Int) = 7 - x % 8) := by
  obtain ⟨n, hn⟩ := Int.eq_ofNat_of_zero_le (Int.emod_nonneg x (show (8 : Int) ≠ 0 by decide))
  have hlt : n < 8 := by have := Int.emod_lt_of_pos x (show (0 : Int) < 8 by decide); omega
  simp only [mask, posmod, hn, Int.toNat_natCast]
  have hk : ((k : Int) = 7 - (n : Int)) ↔ k = 7 - n := by omega
  simp only [hk]
  by_cases h8 : k < 8
  · clear hn hk
    interval_cases n <;> interval_cases k <;> rfl
  · rw [BitVec.getLsbD_of_ge _ _ (by omega)]
    exact (decide_eq_false (by omega)).symm

/-- The bits of a cleared byte (00 R6). -/
theorem clear_getLsbD (wb : Byte) (x : Int) (k : Nat) :
    (clear wb x).getLsbD k = (wb.getLsbD k && !decide ((k : Int) = 7 - x % 8)) := by
  unfold clear
  rw [BitVec.getLsbD_and, BitVec.getLsbD_not, mask_getLsbD]
  by_cases h : k < 8
  · simp [h]
  · simp [BitVec.getLsbD_of_ge wb k (by omega)]

theorem memberPoint_iff (p : Params) (px py : Word) (q : Pixel) :
    memberPoint p px py q = true ↔ (q.x, q.y) = transform p q.o (sext px) (sext py) := by
  simp [memberPoint, Prod.ext_iff]

theorem onRow_iff (tx ty ex x y : Int) : onRow tx ty ex x y = true ↔ y = ty ∧ tx ≤ x ∧ x ≤ tx + ex := by
  simp [onRow, and_assoc]

theorem onColumn_iff (tx ty ey x y : Int) : onColumn tx ty ey x y = true ↔ x = tx ∧ ty ≤ y ∧ y ≤ ty + ey := by
  simp [onColumn, and_assoc]

theorem memberLine_iff (p : Params) (x0 y0 x1 y1 : Word) (q : Pixel) :
    memberLine p x0 y0 x1 y1 q = true ↔
      (sext y1 - sext y0 = 0 ∧ onRow (transform p q.o (sext x0) (sext y0)).1 (transform p q.o (sext x0) (sext y0)).2
        (sext x1 - sext x0) q.x q.y = true) ∨
      (sext x1 - sext x0 = 0 ∧ onColumn (transform p q.o (sext x0) (sext y0)).1
        (transform p q.o (sext x0) (sext y0)).2 (sext y1 - sext y0) q.x q.y = true) := by
  simp [memberLine]

theorem memberRectF_iff (p : Params) (x0 y0 w h : Word) (q : Pixel) :
    memberRectF p x0 y0 w h q = true ↔
      (transform p q.o (sext x0) (sext y0)).1 ≤ q.x ∧ q.x ≤ (transform p q.o (sext x0) (sext y0)).1 + sext w ∧
      (transform p q.o (sext x0) (sext y0)).2 ≤ q.y ∧ q.y ≤ (transform p q.o (sext x0) (sext y0)).2 + sext h := by
  simp [memberRectF, and_assoc]

theorem circleNear_iff (r : Int) (d : Int × Int) : circleNear r d = true ↔ |d.1| ≤ r + 1 ∧ |d.2| ≤ r + 1 := by
  simp [circleNear]

theorem onRing_iff (r d2 : Int) : onRing r d2 = true ↔
    4 * d2 < (2 * r + 1) * (2 * r + 1) ∧ (r = 0 ∨ (2 * r - 1) * (2 * r - 1) ≤ 4 * d2) := by
  simp [onRing]

theorem onDevice_iff (p : Params) (x y : Int) :
    onDevice p x y = true ↔ (0 ≤ x ∧ x < p.width) ∧ 0 ≤ y ∧ y < p.height := by
  simp only [onDevice, Bool.and_eq_true, decide_eq_true_eq]
  omega

/-- The width is a whole number of bytes (00 R3). -/
theorem width_eq (p : Params) : p.width = 8 * (p.width / 8) := by
  have := p.legal.1; omega

/-- A pixel of a byte position of the device is on the device (10 R14). -/
theorem onDevice_lane {p : Params} {xg bi y : Nat} (hx : xg < p.width / 8) (hb : bi < 8) (hy : y < p.height) :
    onDevice p (8 * (xg : Int) + bi) y = true := by
  rw [onDevice_iff]
  have := width_eq p
  omega

/-- The bitmap byte of a pixel of a byte position (20 R45). -/
theorem rawByte_lane (p : Params) (m : List Host.Cell) (buf : Word) {xg bi y : Nat} (hb : bi < 8) :
    rawByte p m buf (8 * (xg : Int) + bi) y = xread m (zext buf + ((y * (p.width / 8) + xg : Nat) : Int)) := by
  have h : tdiv (8 * (xg : Int) + bi) 8 = xg := by
    unfold tdiv
    rw [Int.tdiv_eq_ediv_of_nonneg (by omega)]
    omega
  unfold rawByte rowBytes
  rw [h]
  congr 1
  push_cast
  ring

/-- A clear-only evaluation as its membership decides (41 R100). -/
theorem processCmd_clearOnly {c : Instr} (h : c.isClearOnly = true) (hw : c.wf = true) (p : Params)
    (m : List Host.Cell) (q : Pixel) :
    processCmd p m c q = match memberCmd p m c q with
      | some b => clearIf b q
      | none => .badGlyph := by
  cases c <;> try first | rfl | exact absurd h Bool.false_ne_true
  next x y str fnt len scale =>
    have hs : ¬ scale = 0 := by simpa [Instr.wf] using hw
    exact if_neg hs

end Sys2Proof.Machine
end

