-- ==== Sys2Proof/Laws/Sparse.lean ====
section
/-! SUPPORT. The laws of the total maps of `Machine/Sparse.lean`: a read after a write, and that a write keeps the canonical form. -/
namespace Sys2Proof.Machine

variable {α : Type}

@[simp] theorem sparseGet_erase_same (d : α) (k : Nat) (m : List (Nat × α)) : sparseGet d k (sparseErase k m) = d := by
  induction m with
  | nil => rfl
  | cons e m ih =>
    obtain ⟨a, v⟩ := e
    by_cases h : a = k <;> simp [sparseErase, sparseGet, h, ih]

theorem sparseGet_erase_other (d : α) {k j : Nat} (hj : j ≠ k) (m : List (Nat × α)) :
    sparseGet d j (sparseErase k m) = sparseGet d j m := by
  induction m with
  | nil => rfl
  | cons e m ih =>
    obtain ⟨a, v⟩ := e
    by_cases h : a = k
    · simp [sparseErase, sparseGet, h, ih, Ne.symm hj]
    · simp [sparseErase, sparseGet, h, ih]

/-- No entry has address `k`. -/
def sparseFree (k : Nat) (m : List (Nat × α)) : Prop := ∀ e ∈ m, e.1 ≠ k

theorem sparseFree_erase (k : Nat) (m : List (Nat × α)) : sparseFree k (sparseErase k m) := by
  induction m with
  | nil => intro e he; cases he
  | cons e m ih =>
    obtain ⟨a, v⟩ := e
    by_cases h : a = k
    · simpa [sparseErase, h] using ih
    · intro e' he'
      simp only [sparseErase, h, if_false, List.mem_cons] at he'
      obtain rfl | he' := he'
      · exact h
      · exact ih _ he'

theorem sparseGet_insert_same (d : α) (k : Nat) (v : α) (m : List (Nat × α)) (hm : sparseFree k m) :
    sparseGet d k (sparseInsert k v m) = v := by
  induction m with
  | nil => simp [sparseInsert, sparseGet]
  | cons e m ih =>
    obtain ⟨a, w⟩ := e
    have ha : a ≠ k := hm (a, w) (by simp)
    by_cases h : k < a
    · simp [sparseInsert, sparseGet, h]
    · simp [sparseInsert, sparseGet, h, ha, ih (fun e he => hm e (by simp [he]))]

theorem sparseGet_insert_other (d : α) {k j : Nat} (hj : j ≠ k) (v : α) (m : List (Nat × α)) :
    sparseGet d j (sparseInsert k v m) = sparseGet d j m := by
  induction m with
  | nil => simp [sparseInsert, sparseGet, Ne.symm hj]
  | cons e m ih =>
    obtain ⟨a, w⟩ := e
    by_cases h : k < a
    · simp [sparseInsert, sparseGet, h, Ne.symm hj]
    · simp [sparseInsert, sparseGet, h, ih]

variable [DecidableEq α]

@[simp] theorem sparseGet_set_same (d : α) (k : Nat) (v : α) (m : List (Nat × α)) :
    sparseGet d k (sparseSet d k v m) = v := by
  unfold sparseSet
  split
  · next h => rw [sparseGet_erase_same, h]
  · exact sparseGet_insert_same d k v _ (sparseFree_erase k m)

theorem sparseGet_set_other (d : α) {k j : Nat} (hj : j ≠ k) (v : α) (m : List (Nat × α)) :
    sparseGet d j (sparseSet d k v m) = sparseGet d j m := by
  unfold sparseSet
  split
  · exact sparseGet_erase_other d hj m
  · rw [sparseGet_insert_other d hj, sparseGet_erase_other d hj]

omit [DecidableEq α] in
theorem sparseRising_mono {lo lo' : Nat} (h : lo' ≤ lo) (m : List (Nat × α)) (hm : sparseRising lo m = true) :
    sparseRising lo' m = true := by
  cases m with
  | nil => rfl
  | cons e m =>
    obtain ⟨a, v⟩ := e
    simp only [sparseRising, Bool.and_eq_true, decide_eq_true_eq] at hm ⊢
    exact ⟨by omega, hm.2⟩

omit [DecidableEq α] in
theorem sparseRising_erase (lo k : Nat) (m : List (Nat × α)) (hm : sparseRising lo m = true) :
    sparseRising lo (sparseErase k m) = true := by
  induction m generalizing lo with
  | nil => rfl
  | cons e m ih =>
    obtain ⟨a, v⟩ := e
    simp only [sparseRising, Bool.and_eq_true, decide_eq_true_eq] at hm
    by_cases h : a = k
    · simp only [sparseErase, h, if_true]
      exact ih lo (sparseRising_mono (by omega) m hm.2)
    · simp only [sparseErase, h, if_false, sparseRising, Bool.and_eq_true, decide_eq_true_eq]
      exact ⟨hm.1, ih _ hm.2⟩

omit [DecidableEq α] in
theorem sparseRising_insert (lo k : Nat) (v : α) (m : List (Nat × α)) (hlo : lo ≤ k) (hf : sparseFree k m)
    (hm : sparseRising lo m = true) : sparseRising lo (sparseInsert k v m) = true := by
  induction m generalizing lo with
  | nil => simp [sparseInsert, sparseRising, hlo]
  | cons e m ih =>
    obtain ⟨a, w⟩ := e
    have ha : a ≠ k := hf (a, w) (by simp)
    simp only [sparseRising, Bool.and_eq_true, decide_eq_true_eq] at hm
    by_cases h : k < a
    · simp only [sparseInsert, h, if_true, sparseRising, Bool.and_eq_true, decide_eq_true_eq]
      exact ⟨hlo, by omega, hm.2⟩
    · simp only [sparseInsert, h, if_false, sparseRising, Bool.and_eq_true, decide_eq_true_eq]
      exact ⟨hm.1, ih (a + 1) (by omega) (fun e he => hf e (by simp [he])) hm.2⟩

omit [DecidableEq α] in
theorem mem_sparseErase {k : Nat} {m : List (Nat × α)} {e : Nat × α} (he : e ∈ sparseErase k m) : e ∈ m := by
  induction m with
  | nil => cases he
  | cons e' m ih =>
    obtain ⟨a, v⟩ := e'
    by_cases h : a = k
    · simp only [sparseErase, h, if_true] at he
      exact List.mem_cons_of_mem _ (ih he)
    · simp only [sparseErase, h, if_false, List.mem_cons] at he
      obtain rfl | he := he
      · simp
      · exact List.mem_cons_of_mem _ (ih he)

omit [DecidableEq α] in
theorem mem_sparseInsert {k : Nat} {v : α} {m : List (Nat × α)} {e : Nat × α} (he : e ∈ sparseInsert k v m) :
    e = (k, v) ∨ e ∈ m := by
  induction m with
  | nil => simpa [sparseInsert] using he
  | cons e' m ih =>
    obtain ⟨a, w⟩ := e'
    by_cases h : k < a
    · simpa [sparseInsert, h] using he
    · simp only [sparseInsert, h, if_false, List.mem_cons] at he ⊢
      obtain rfl | he := he
      · simp
      · obtain h' | h' := ih he <;> simp [h']

/-- A write at an address inside the space keeps the canonical form. -/
theorem sparseWf_set (d : α) (bound k : Nat) (v : α) (m : List (Nat × α)) (hk : k < bound)
    (hm : sparseWf d bound m = true) : sparseWf d bound (sparseSet d k v m) = true := by
  simp only [sparseWf, Bool.and_eq_true, List.all_eq_true, decide_eq_true_eq] at hm ⊢
  obtain ⟨hr, ha⟩ := hm
  unfold sparseSet
  split
  · exact ⟨sparseRising_erase 0 k m hr, fun e he => ha e (mem_sparseErase he)⟩
  · next hv =>
    refine ⟨sparseRising_insert 0 k v _ (Nat.zero_le k) (sparseFree_erase k m) (sparseRising_erase 0 k m hr), ?_⟩
    intro e he
    obtain rfl | he := mem_sparseInsert he
    · exact ⟨hk, hv⟩
    · exact ha e (mem_sparseErase he)

@[simp] theorem sparseWf_nil (d : α) (bound : Nat) : sparseWf d bound ([] : List (Nat × α)) = true := rfl

end Sys2Proof.Machine
end

