-- ==== Sys2Proof/Laws/State.lean ====
section
/-! SUPPORT. What each named update of the state does to each field of it. -/
namespace Sys2Proof.Machine

/-! ### setAccepted -/

@[simp] theorem setAccepted_params (s : State) : (setAccepted s).params = s.params := rfl
@[simp] theorem setAccepted_slots (s : State) : (setAccepted s).slots = s.slots := rfl
@[simp] theorem setAccepted_size (s : State) : (setAccepted s).size = s.size := rfl
@[simp] theorem setAccepted_wb (s : State) : (setAccepted s).wb = s.wb := rfl
@[simp] theorem setAccepted_y (s : State) : (setAccepted s).y = s.y := rfl
@[simp] theorem setAccepted_xg (s : State) : (setAccepted s).xg = s.xg := rfl
@[simp] theorem setAccepted_ci (s : State) : (setAccepted s).ci = s.ci := rfl
@[simp] theorem setAccepted_bi (s : State) : (setAccepted s).bi = s.bi := rfl
@[simp] theorem setAccepted_orient (s : State) : (setAccepted s).orient = s.orient := rfl
@[simp] theorem setAccepted_orientAct (s : State) : (setAccepted s).orientAct = s.orientAct := rfl
@[simp] theorem setAccepted_busy (s : State) : (setAccepted s).busy = s.busy := rfl
@[simp] theorem setAccepted_rej (s : State) : (setAccepted s).rej = false := rfl
@[simp] theorem setAccepted_cause (s : State) : (setAccepted s).cause = .none := rfl
@[simp] theorem setAccepted_stageTag (s : State) : (setAccepted s).stageTag = s.stageTag := rfl
@[simp] theorem setAccepted_stage (s : State) : (setAccepted s).stage = s.stage := rfl
@[simp] theorem setAccepted_pIdx (s : State) : (setAccepted s).pIdx = s.pIdx := rfl
@[simp] theorem setAccepted_pWb (s : State) : (setAccepted s).pWb = s.pWb := rfl
@[simp] theorem setAccepted_pX (s : State) : (setAccepted s).pX = s.pX := rfl
@[simp] theorem setAccepted_pY (s : State) : (setAccepted s).pY = s.pY := rfl
@[simp] theorem setAccepted_pOut (s : State) : (setAccepted s).pOut = s.pOut := rfl
@[simp] theorem setAccepted_out (s : State) : (setAccepted s).out = s.out := rfl
@[simp] theorem setAccepted_xmem (s : State) : (setAccepted s).xmem = s.xmem := rfl
@[simp] theorem setAccepted_env (s : State) : (setAccepted s).env = s.env := rfl
@[simp] theorem setAccepted_reads (s : State) : (setAccepted s).reads = s.reads := rfl
@[simp] theorem setAccepted_draws (s : State) : (setAccepted s).draws = s.draws := rfl

/-! ### setRejected -/

@[simp] theorem setRejected_params (c : Cause) (s : State) : (setRejected c s).params = s.params := rfl
@[simp] theorem setRejected_slots (c : Cause) (s : State) : (setRejected c s).slots = s.slots := rfl
@[simp] theorem setRejected_size (c : Cause) (s : State) : (setRejected c s).size = s.size := rfl
@[simp] theorem setRejected_wb (c : Cause) (s : State) : (setRejected c s).wb = s.wb := rfl
@[simp] theorem setRejected_y (c : Cause) (s : State) : (setRejected c s).y = s.y := rfl
@[simp] theorem setRejected_xg (c : Cause) (s : State) : (setRejected c s).xg = s.xg := rfl
@[simp] theorem setRejected_ci (c : Cause) (s : State) : (setRejected c s).ci = s.ci := rfl
@[simp] theorem setRejected_bi (c : Cause) (s : State) : (setRejected c s).bi = s.bi := rfl
@[simp] theorem setRejected_orient (c : Cause) (s : State) : (setRejected c s).orient = s.orient := rfl
@[simp] theorem setRejected_orientAct (c : Cause) (s : State) : (setRejected c s).orientAct = s.orientAct := rfl
@[simp] theorem setRejected_busy (c : Cause) (s : State) : (setRejected c s).busy = s.busy := rfl
@[simp] theorem setRejected_rej (c : Cause) (s : State) : (setRejected c s).rej = true := rfl
@[simp] theorem setRejected_cause (c : Cause) (s : State) : (setRejected c s).cause = c := rfl
@[simp] theorem setRejected_stageTag (c : Cause) (s : State) : (setRejected c s).stageTag = s.stageTag := rfl
@[simp] theorem setRejected_stage (c : Cause) (s : State) : (setRejected c s).stage = s.stage := rfl
@[simp] theorem setRejected_pIdx (c : Cause) (s : State) : (setRejected c s).pIdx = s.pIdx := rfl
@[simp] theorem setRejected_pWb (c : Cause) (s : State) : (setRejected c s).pWb = s.pWb := rfl
@[simp] theorem setRejected_pX (c : Cause) (s : State) : (setRejected c s).pX = s.pX := rfl
@[simp] theorem setRejected_pY (c : Cause) (s : State) : (setRejected c s).pY = s.pY := rfl
@[simp] theorem setRejected_pOut (c : Cause) (s : State) : (setRejected c s).pOut = s.pOut := rfl
@[simp] theorem setRejected_out (c : Cause) (s : State) : (setRejected c s).out = s.out := rfl
@[simp] theorem setRejected_xmem (c : Cause) (s : State) : (setRejected c s).xmem = s.xmem := rfl
@[simp] theorem setRejected_env (c : Cause) (s : State) : (setRejected c s).env = s.env := rfl
@[simp] theorem setRejected_reads (c : Cause) (s : State) : (setRejected c s).reads = s.reads := rfl
@[simp] theorem setRejected_draws (c : Cause) (s : State) : (setRejected c s).draws = s.draws := rfl

/-! ### startPass -/

@[simp] theorem startPass_params (s : State) : (startPass s).params = s.params := rfl
@[simp] theorem startPass_slots (s : State) : (startPass s).slots = s.slots := rfl
@[simp] theorem startPass_size (s : State) : (startPass s).size = s.size := rfl
@[simp] theorem startPass_wb (s : State) : (startPass s).wb = 0xFF := rfl
@[simp] theorem startPass_y (s : State) : (startPass s).y = 0 := rfl
@[simp] theorem startPass_xg (s : State) : (startPass s).xg = 0 := rfl
@[simp] theorem startPass_ci (s : State) : (startPass s).ci = 0 := rfl
@[simp] theorem startPass_bi (s : State) : (startPass s).bi = 0 := rfl
@[simp] theorem startPass_orient (s : State) : (startPass s).orient = s.orient := rfl
@[simp] theorem startPass_orientAct (s : State) : (startPass s).orientAct = s.orient := rfl
@[simp] theorem startPass_busy (s : State) : (startPass s).busy = true := rfl
@[simp] theorem startPass_rej (s : State) : (startPass s).rej = s.rej := rfl
@[simp] theorem startPass_cause (s : State) : (startPass s).cause = s.cause := rfl
@[simp] theorem startPass_stageTag (s : State) : (startPass s).stageTag = s.stageTag := rfl
@[simp] theorem startPass_stage (s : State) : (startPass s).stage = s.stage := rfl
@[simp] theorem startPass_pIdx (s : State) : (startPass s).pIdx = s.pIdx := rfl
@[simp] theorem startPass_pWb (s : State) : (startPass s).pWb = s.pWb := rfl
@[simp] theorem startPass_pX (s : State) : (startPass s).pX = s.pX := rfl
@[simp] theorem startPass_pY (s : State) : (startPass s).pY = s.pY := rfl
@[simp] theorem startPass_pOut (s : State) : (startPass s).pOut = s.pOut := rfl
@[simp] theorem startPass_out (s : State) : (startPass s).out = s.out := rfl
@[simp] theorem startPass_xmem (s : State) : (startPass s).xmem = s.xmem := rfl
@[simp] theorem startPass_env (s : State) : (startPass s).env = s.env := rfl
@[simp] theorem startPass_reads (s : State) : (startPass s).reads = s.reads := rfl
@[simp] theorem startPass_draws (s : State) : (startPass s).draws = s.draws := rfl

/-! ### endPass -/

@[simp] theorem endPass_params (s : State) : (endPass s).params = s.params := rfl
@[simp] theorem endPass_slots (s : State) : (endPass s).slots = s.slots := rfl
@[simp] theorem endPass_size (s : State) : (endPass s).size = s.size := rfl
@[simp] theorem endPass_wb (s : State) : (endPass s).wb = Config.freeByte s.draws := rfl
@[simp] theorem endPass_y (s : State) : (endPass s).y = Config.freeCount s.draws := rfl
@[simp] theorem endPass_xg (s : State) : (endPass s).xg = Config.freeCount (s.draws + 1) := rfl
@[simp] theorem endPass_ci (s : State) : (endPass s).ci = Config.freeCount (s.draws + 2) := rfl
@[simp] theorem endPass_bi (s : State) : (endPass s).bi = Config.freeCount (s.draws + 3) := rfl
@[simp] theorem endPass_orient (s : State) : (endPass s).orient = s.orient := rfl
@[simp] theorem endPass_orientAct (s : State) : (endPass s).orientAct = s.orientAct := rfl
@[simp] theorem endPass_busy (s : State) : (endPass s).busy = false := rfl
@[simp] theorem endPass_rej (s : State) : (endPass s).rej = s.rej := rfl
@[simp] theorem endPass_cause (s : State) : (endPass s).cause = s.cause := rfl
@[simp] theorem endPass_stageTag (s : State) : (endPass s).stageTag = s.stageTag := rfl
@[simp] theorem endPass_stage (s : State) : (endPass s).stage = s.stage := rfl
@[simp] theorem endPass_pIdx (s : State) : (endPass s).pIdx = s.pIdx := rfl
@[simp] theorem endPass_pWb (s : State) : (endPass s).pWb = s.pWb := rfl
@[simp] theorem endPass_pX (s : State) : (endPass s).pX = s.pX := rfl
@[simp] theorem endPass_pY (s : State) : (endPass s).pY = s.pY := rfl
@[simp] theorem endPass_pOut (s : State) : (endPass s).pOut = s.pOut := rfl
@[simp] theorem endPass_out (s : State) : (endPass s).out = s.out := rfl
@[simp] theorem endPass_xmem (s : State) : (endPass s).xmem = s.xmem := rfl
@[simp] theorem endPass_env (s : State) : (endPass s).env = s.env := rfl
@[simp] theorem endPass_reads (s : State) : (endPass s).reads = s.reads := rfl
@[simp] theorem endPass_draws (s : State) : (endPass s).draws = s.draws + 4 := rfl

/-! ### writeXmem -/

@[simp] theorem writeXmem_params (a : Word) (b : Byte) (s : State) : (writeXmem a b s).params = s.params := rfl
@[simp] theorem writeXmem_slots (a : Word) (b : Byte) (s : State) : (writeXmem a b s).slots = s.slots := rfl
@[simp] theorem writeXmem_size (a : Word) (b : Byte) (s : State) : (writeXmem a b s).size = s.size := rfl
@[simp] theorem writeXmem_wb (a : Word) (b : Byte) (s : State) : (writeXmem a b s).wb = s.wb := rfl
@[simp] theorem writeXmem_y (a : Word) (b : Byte) (s : State) : (writeXmem a b s).y = s.y := rfl
@[simp] theorem writeXmem_xg (a : Word) (b : Byte) (s : State) : (writeXmem a b s).xg = s.xg := rfl
@[simp] theorem writeXmem_ci (a : Word) (b : Byte) (s : State) : (writeXmem a b s).ci = s.ci := rfl
@[simp] theorem writeXmem_bi (a : Word) (b : Byte) (s : State) : (writeXmem a b s).bi = s.bi := rfl
@[simp] theorem writeXmem_orient (a : Word) (b : Byte) (s : State) : (writeXmem a b s).orient = s.orient := rfl
@[simp] theorem writeXmem_orientAct (a : Word) (b : Byte) (s : State) : (writeXmem a b s).orientAct = s.orientAct := rfl
@[simp] theorem writeXmem_busy (a : Word) (b : Byte) (s : State) : (writeXmem a b s).busy = s.busy := rfl
@[simp] theorem writeXmem_rej (a : Word) (b : Byte) (s : State) : (writeXmem a b s).rej = s.rej := rfl
@[simp] theorem writeXmem_cause (a : Word) (b : Byte) (s : State) : (writeXmem a b s).cause = s.cause := rfl
@[simp] theorem writeXmem_stageTag (a : Word) (b : Byte) (s : State) : (writeXmem a b s).stageTag = s.stageTag := rfl
@[simp] theorem writeXmem_stage (a : Word) (b : Byte) (s : State) : (writeXmem a b s).stage = s.stage := rfl
@[simp] theorem writeXmem_pIdx (a : Word) (b : Byte) (s : State) : (writeXmem a b s).pIdx = s.pIdx := rfl
@[simp] theorem writeXmem_pWb (a : Word) (b : Byte) (s : State) : (writeXmem a b s).pWb = s.pWb := rfl
@[simp] theorem writeXmem_pX (a : Word) (b : Byte) (s : State) : (writeXmem a b s).pX = s.pX := rfl
@[simp] theorem writeXmem_pY (a : Word) (b : Byte) (s : State) : (writeXmem a b s).pY = s.pY := rfl
@[simp] theorem writeXmem_pOut (a : Word) (b : Byte) (s : State) : (writeXmem a b s).pOut = s.pOut := rfl
@[simp] theorem writeXmem_out (a : Word) (b : Byte) (s : State) : (writeXmem a b s).out = s.out := rfl
@[simp] theorem writeXmem_xmem (a : Word) (b : Byte) (s : State) : (writeXmem a b s).xmem = sparseSet xmemDefault a.toNat b s.xmem := rfl
@[simp] theorem writeXmem_env (a : Word) (b : Byte) (s : State) : (writeXmem a b s).env = s.env := rfl
@[simp] theorem writeXmem_reads (a : Word) (b : Byte) (s : State) : (writeXmem a b s).reads = s.reads := rfl
@[simp] theorem writeXmem_draws (a : Word) (b : Byte) (s : State) : (writeXmem a b s).draws = s.draws := rfl

/-! ### writeSlot -/

@[simp] theorem writeSlot_params (i : Nat) (tag : Byte) (pl : List Byte) (s : State) : (writeSlot i tag pl s).params = s.params := rfl
@[simp] theorem writeSlot_size (i : Nat) (tag : Byte) (pl : List Byte) (s : State) : (writeSlot i tag pl s).size = s.size := rfl
@[simp] theorem writeSlot_wb (i : Nat) (tag : Byte) (pl : List Byte) (s : State) : (writeSlot i tag pl s).wb = s.wb := rfl
@[simp] theorem writeSlot_y (i : Nat) (tag : Byte) (pl : List Byte) (s : State) : (writeSlot i tag pl s).y = s.y := rfl
@[simp] theorem writeSlot_xg (i : Nat) (tag : Byte) (pl : List Byte) (s : State) : (writeSlot i tag pl s).xg = s.xg := rfl
@[simp] theorem writeSlot_ci (i : Nat) (tag : Byte) (pl : List Byte) (s : State) : (writeSlot i tag pl s).ci = s.ci := rfl
@[simp] theorem writeSlot_bi (i : Nat) (tag : Byte) (pl : List Byte) (s : State) : (writeSlot i tag pl s).bi = s.bi := rfl
@[simp] theorem writeSlot_orient (i : Nat) (tag : Byte) (pl : List Byte) (s : State) : (writeSlot i tag pl s).orient = s.orient := rfl
@[simp] theorem writeSlot_orientAct (i : Nat) (tag : Byte) (pl : List Byte) (s : State) : (writeSlot i tag pl s).orientAct = s.orientAct := rfl
@[simp] theorem writeSlot_busy (i : Nat) (tag : Byte) (pl : List Byte) (s : State) : (writeSlot i tag pl s).busy = s.busy := rfl
@[simp] theorem writeSlot_rej (i : Nat) (tag : Byte) (pl : List Byte) (s : State) : (writeSlot i tag pl s).rej = s.rej := rfl
@[simp] theorem writeSlot_cause (i : Nat) (tag : Byte) (pl : List Byte) (s : State) : (writeSlot i tag pl s).cause = s.cause := rfl
@[simp] theorem writeSlot_stageTag (i : Nat) (tag : Byte) (pl : List Byte) (s : State) : (writeSlot i tag pl s).stageTag = s.stageTag := rfl
@[simp] theorem writeSlot_stage (i : Nat) (tag : Byte) (pl : List Byte) (s : State) : (writeSlot i tag pl s).stage = s.stage := rfl
@[simp] theorem writeSlot_pIdx (i : Nat) (tag : Byte) (pl : List Byte) (s : State) : (writeSlot i tag pl s).pIdx = s.pIdx := rfl
@[simp] theorem writeSlot_pWb (i : Nat) (tag : Byte) (pl : List Byte) (s : State) : (writeSlot i tag pl s).pWb = s.pWb := rfl
@[simp] theorem writeSlot_pX (i : Nat) (tag : Byte) (pl : List Byte) (s : State) : (writeSlot i tag pl s).pX = s.pX := rfl
@[simp] theorem writeSlot_pY (i : Nat) (tag : Byte) (pl : List Byte) (s : State) : (writeSlot i tag pl s).pY = s.pY := rfl
@[simp] theorem writeSlot_pOut (i : Nat) (tag : Byte) (pl : List Byte) (s : State) : (writeSlot i tag pl s).pOut = s.pOut := rfl
@[simp] theorem writeSlot_out (i : Nat) (tag : Byte) (pl : List Byte) (s : State) : (writeSlot i tag pl s).out = s.out := rfl
@[simp] theorem writeSlot_xmem (i : Nat) (tag : Byte) (pl : List Byte) (s : State) : (writeSlot i tag pl s).xmem = s.xmem := rfl
@[simp] theorem writeSlot_env (i : Nat) (tag : Byte) (pl : List Byte) (s : State) : (writeSlot i tag pl s).env = s.env := rfl
@[simp] theorem writeSlot_reads (i : Nat) (tag : Byte) (pl : List Byte) (s : State) : (writeSlot i tag pl s).reads = s.reads := rfl
@[simp] theorem writeSlot_draws (i : Nat) (tag : Byte) (pl : List Byte) (s : State) : (writeSlot i tag pl s).draws = s.draws := rfl

/-! ### resetEvent -/

@[simp] theorem resetEvent_params (s : State) : (resetEvent s).params = s.params := rfl
@[simp] theorem resetEvent_slots (s : State) : (resetEvent s).slots = [] := rfl
@[simp] theorem resetEvent_size (s : State) : (resetEvent s).size = 0 := rfl
@[simp] theorem resetEvent_wb (s : State) : (resetEvent s).wb = 0 := rfl
@[simp] theorem resetEvent_y (s : State) : (resetEvent s).y = 0 := rfl
@[simp] theorem resetEvent_xg (s : State) : (resetEvent s).xg = 0 := rfl
@[simp] theorem resetEvent_ci (s : State) : (resetEvent s).ci = 0 := rfl
@[simp] theorem resetEvent_bi (s : State) : (resetEvent s).bi = 0 := rfl
@[simp] theorem resetEvent_orient (s : State) : (resetEvent s).orient = 0 := rfl
@[simp] theorem resetEvent_orientAct (s : State) : (resetEvent s).orientAct = 0 := rfl
@[simp] theorem resetEvent_busy (s : State) : (resetEvent s).busy = false := rfl
@[simp] theorem resetEvent_rej (s : State) : (resetEvent s).rej = false := rfl
@[simp] theorem resetEvent_cause (s : State) : (resetEvent s).cause = .none := rfl
@[simp] theorem resetEvent_stageTag (s : State) : (resetEvent s).stageTag = 0 := rfl
@[simp] theorem resetEvent_stage (s : State) : (resetEvent s).stage = Vector.replicate 11 0 := rfl
@[simp] theorem resetEvent_pIdx (s : State) : (resetEvent s).pIdx = 0 := rfl
@[simp] theorem resetEvent_pWb (s : State) : (resetEvent s).pWb = 0 := rfl
@[simp] theorem resetEvent_pX (s : State) : (resetEvent s).pX = 0 := rfl
@[simp] theorem resetEvent_pY (s : State) : (resetEvent s).pY = 0 := rfl
@[simp] theorem resetEvent_pOut (s : State) : (resetEvent s).pOut = 0 := rfl
@[simp] theorem resetEvent_out (s : State) : (resetEvent s).out = [] := rfl
@[simp] theorem resetEvent_xmem (s : State) : (resetEvent s).xmem = s.xmem := rfl
@[simp] theorem resetEvent_env (s : State) : (resetEvent s).env = s.env := rfl
@[simp] theorem resetEvent_reads (s : State) : (resetEvent s).reads = [] := rfl
@[simp] theorem resetEvent_draws (s : State) : (resetEvent s).draws = s.draws := rfl

/-! ### advanceSweep: what it leaves alone -/

@[simp] theorem advanceSweep_params (s : State) : (advanceSweep s).params = s.params := by unfold advanceSweep; split <;> rfl
@[simp] theorem advanceSweep_slots (s : State) : (advanceSweep s).slots = s.slots := by unfold advanceSweep; split <;> rfl
@[simp] theorem advanceSweep_size (s : State) : (advanceSweep s).size = s.size := by unfold advanceSweep; split <;> rfl
@[simp] theorem advanceSweep_wb (s : State) : (advanceSweep s).wb = s.wb := by unfold advanceSweep; split <;> rfl
@[simp] theorem advanceSweep_y (s : State) : (advanceSweep s).y = s.y := by unfold advanceSweep; split <;> rfl
@[simp] theorem advanceSweep_xg (s : State) : (advanceSweep s).xg = s.xg := by unfold advanceSweep; split <;> rfl
@[simp] theorem advanceSweep_orient (s : State) : (advanceSweep s).orient = s.orient := by unfold advanceSweep; split <;> rfl
@[simp] theorem advanceSweep_orientAct (s : State) : (advanceSweep s).orientAct = s.orientAct := by unfold advanceSweep; split <;> rfl
@[simp] theorem advanceSweep_busy (s : State) : (advanceSweep s).busy = s.busy := by unfold advanceSweep; split <;> rfl
@[simp] theorem advanceSweep_rej (s : State) : (advanceSweep s).rej = s.rej := by unfold advanceSweep; split <;> rfl
@[simp] theorem advanceSweep_cause (s : State) : (advanceSweep s).cause = s.cause := by unfold advanceSweep; split <;> rfl
@[simp] theorem advanceSweep_stageTag (s : State) : (advanceSweep s).stageTag = s.stageTag := by unfold advanceSweep; split <;> rfl
@[simp] theorem advanceSweep_stage (s : State) : (advanceSweep s).stage = s.stage := by unfold advanceSweep; split <;> rfl
@[simp] theorem advanceSweep_pIdx (s : State) : (advanceSweep s).pIdx = s.pIdx := by unfold advanceSweep; split <;> rfl
@[simp] theorem advanceSweep_pWb (s : State) : (advanceSweep s).pWb = s.pWb := by unfold advanceSweep; split <;> rfl
@[simp] theorem advanceSweep_pX (s : State) : (advanceSweep s).pX = s.pX := by unfold advanceSweep; split <;> rfl
@[simp] theorem advanceSweep_pY (s : State) : (advanceSweep s).pY = s.pY := by unfold advanceSweep; split <;> rfl
@[simp] theorem advanceSweep_pOut (s : State) : (advanceSweep s).pOut = s.pOut := by unfold advanceSweep; split <;> rfl
@[simp] theorem advanceSweep_out (s : State) : (advanceSweep s).out = s.out := by unfold advanceSweep; split <;> rfl
@[simp] theorem advanceSweep_xmem (s : State) : (advanceSweep s).xmem = s.xmem := by unfold advanceSweep; split <;> rfl
@[simp] theorem advanceSweep_env (s : State) : (advanceSweep s).env = s.env := by unfold advanceSweep; split <;> rfl
@[simp] theorem advanceSweep_reads (s : State) : (advanceSweep s).reads = s.reads := by unfold advanceSweep; split <;> rfl
@[simp] theorem advanceSweep_draws (s : State) : (advanceSweep s).draws = s.draws := by unfold advanceSweep; split <;> rfl

/-! ### nextPosition: what it leaves alone -/

@[simp] theorem nextPosition_params (s : State) : (nextPosition s).params = s.params := by unfold nextPosition; split <;> [rfl; (split <;> rfl)]
@[simp] theorem nextPosition_slots (s : State) : (nextPosition s).slots = s.slots := by unfold nextPosition; split <;> [rfl; (split <;> rfl)]
@[simp] theorem nextPosition_size (s : State) : (nextPosition s).size = s.size := by unfold nextPosition; split <;> [rfl; (split <;> rfl)]
@[simp] theorem nextPosition_orient (s : State) : (nextPosition s).orient = s.orient := by unfold nextPosition; split <;> [rfl; (split <;> rfl)]
@[simp] theorem nextPosition_orientAct (s : State) : (nextPosition s).orientAct = s.orientAct := by unfold nextPosition; split <;> [rfl; (split <;> rfl)]
@[simp] theorem nextPosition_rej (s : State) : (nextPosition s).rej = s.rej := by unfold nextPosition; split <;> [rfl; (split <;> rfl)]
@[simp] theorem nextPosition_cause (s : State) : (nextPosition s).cause = s.cause := by unfold nextPosition; split <;> [rfl; (split <;> rfl)]
@[simp] theorem nextPosition_stageTag (s : State) : (nextPosition s).stageTag = s.stageTag := by unfold nextPosition; split <;> [rfl; (split <;> rfl)]
@[simp] theorem nextPosition_stage (s : State) : (nextPosition s).stage = s.stage := by unfold nextPosition; split <;> [rfl; (split <;> rfl)]
@[simp] theorem nextPosition_pIdx (s : State) : (nextPosition s).pIdx = s.pIdx := by unfold nextPosition; split <;> [rfl; (split <;> rfl)]
@[simp] theorem nextPosition_pWb (s : State) : (nextPosition s).pWb = s.pWb := by unfold nextPosition; split <;> [rfl; (split <;> rfl)]
@[simp] theorem nextPosition_pX (s : State) : (nextPosition s).pX = s.pX := by unfold nextPosition; split <;> [rfl; (split <;> rfl)]
@[simp] theorem nextPosition_pY (s : State) : (nextPosition s).pY = s.pY := by unfold nextPosition; split <;> [rfl; (split <;> rfl)]
@[simp] theorem nextPosition_pOut (s : State) : (nextPosition s).pOut = s.pOut := by unfold nextPosition; split <;> [rfl; (split <;> rfl)]
@[simp] theorem nextPosition_out (s : State) : (nextPosition s).out = s.out := by unfold nextPosition; split <;> [rfl; (split <;> rfl)]
@[simp] theorem nextPosition_xmem (s : State) : (nextPosition s).xmem = s.xmem := by unfold nextPosition; split <;> [rfl; (split <;> rfl)]
@[simp] theorem nextPosition_env (s : State) : (nextPosition s).env = s.env := by unfold nextPosition; split <;> [rfl; (split <;> rfl)]
@[simp] theorem nextPosition_reads (s : State) : (nextPosition s).reads = s.reads := by unfold nextPosition; split <;> [rfl; (split <;> rfl)]

/-! ### emitByte: what it leaves alone -/

@[simp] theorem emitByte_params (s : State) : (emitByte s).params = s.params := by unfold emitByte; simp
@[simp] theorem emitByte_slots (s : State) : (emitByte s).slots = s.slots := by unfold emitByte; simp
@[simp] theorem emitByte_size (s : State) : (emitByte s).size = s.size := by unfold emitByte; simp
@[simp] theorem emitByte_orient (s : State) : (emitByte s).orient = s.orient := by unfold emitByte; simp
@[simp] theorem emitByte_orientAct (s : State) : (emitByte s).orientAct = s.orientAct := by unfold emitByte; simp
@[simp] theorem emitByte_rej (s : State) : (emitByte s).rej = s.rej := by unfold emitByte; simp
@[simp] theorem emitByte_cause (s : State) : (emitByte s).cause = s.cause := by unfold emitByte; simp
@[simp] theorem emitByte_stageTag (s : State) : (emitByte s).stageTag = s.stageTag := by unfold emitByte; simp
@[simp] theorem emitByte_stage (s : State) : (emitByte s).stage = s.stage := by unfold emitByte; simp
@[simp] theorem emitByte_pIdx (s : State) : (emitByte s).pIdx = s.pIdx := by unfold emitByte; simp
@[simp] theorem emitByte_pWb (s : State) : (emitByte s).pWb = s.pWb := by unfold emitByte; simp
@[simp] theorem emitByte_pX (s : State) : (emitByte s).pX = s.pX := by unfold emitByte; simp
@[simp] theorem emitByte_pY (s : State) : (emitByte s).pY = s.pY := by unfold emitByte; simp
@[simp] theorem emitByte_pOut (s : State) : (emitByte s).pOut = s.pOut := by unfold emitByte; simp
@[simp] theorem emitByte_out (s : State) : (emitByte s).out = s.out ++ [s.wb] := by unfold emitByte; simp
@[simp] theorem emitByte_xmem (s : State) : (emitByte s).xmem = s.xmem := by unfold emitByte; simp
@[simp] theorem emitByte_env (s : State) : (emitByte s).env = s.env := by unfold emitByte; simp
@[simp] theorem emitByte_reads (s : State) : (emitByte s).reads = s.reads := by unfold emitByte; simp

/-! ### writeReg: what no host write reaches -/

@[simp] theorem writeReg_params (r : Nat) (v : Word) (s : State) : (writeReg r v s).params = s.params := by unfold writeReg; split <;> first | rfl | (split <;> rfl)
@[simp] theorem writeReg_slots (r : Nat) (v : Word) (s : State) : (writeReg r v s).slots = s.slots := by unfold writeReg; split <;> first | rfl | (split <;> rfl)
@[simp] theorem writeReg_size (r : Nat) (v : Word) (s : State) : (writeReg r v s).size = s.size := by unfold writeReg; split <;> first | rfl | (split <;> rfl)
@[simp] theorem writeReg_wb (r : Nat) (v : Word) (s : State) : (writeReg r v s).wb = s.wb := by unfold writeReg; split <;> first | rfl | (split <;> rfl)
@[simp] theorem writeReg_y (r : Nat) (v : Word) (s : State) : (writeReg r v s).y = s.y := by unfold writeReg; split <;> first | rfl | (split <;> rfl)
@[simp] theorem writeReg_xg (r : Nat) (v : Word) (s : State) : (writeReg r v s).xg = s.xg := by unfold writeReg; split <;> first | rfl | (split <;> rfl)
@[simp] theorem writeReg_ci (r : Nat) (v : Word) (s : State) : (writeReg r v s).ci = s.ci := by unfold writeReg; split <;> first | rfl | (split <;> rfl)
@[simp] theorem writeReg_bi (r : Nat) (v : Word) (s : State) : (writeReg r v s).bi = s.bi := by unfold writeReg; split <;> first | rfl | (split <;> rfl)
@[simp] theorem writeReg_orientAct (r : Nat) (v : Word) (s : State) : (writeReg r v s).orientAct = s.orientAct := by unfold writeReg; split <;> first | rfl | (split <;> rfl)
@[simp] theorem writeReg_busy (r : Nat) (v : Word) (s : State) : (writeReg r v s).busy = s.busy := by unfold writeReg; split <;> first | rfl | (split <;> rfl)
@[simp] theorem writeReg_rej (r : Nat) (v : Word) (s : State) : (writeReg r v s).rej = s.rej := by unfold writeReg; split <;> first | rfl | (split <;> rfl)
@[simp] theorem writeReg_cause (r : Nat) (v : Word) (s : State) : (writeReg r v s).cause = s.cause := by unfold writeReg; split <;> first | rfl | (split <;> rfl)
@[simp] theorem writeReg_pOut (r : Nat) (v : Word) (s : State) : (writeReg r v s).pOut = s.pOut := by unfold writeReg; split <;> first | rfl | (split <;> rfl)
@[simp] theorem writeReg_out (r : Nat) (v : Word) (s : State) : (writeReg r v s).out = s.out := by unfold writeReg; split <;> first | rfl | (split <;> rfl)
@[simp] theorem writeReg_xmem (r : Nat) (v : Word) (s : State) : (writeReg r v s).xmem = s.xmem := by unfold writeReg; split <;> first | rfl | (split <;> rfl)
@[simp] theorem writeReg_env (r : Nat) (v : Word) (s : State) : (writeReg r v s).env = s.env := by unfold writeReg; split <;> first | rfl | (split <;> rfl)
@[simp] theorem writeReg_reads (r : Nat) (v : Word) (s : State) : (writeReg r v s).reads = s.reads := by unfold writeReg; split <;> first | rfl | (split <;> rfl)
@[simp] theorem writeReg_draws (r : Nat) (v : Word) (s : State) : (writeReg r v s).draws = s.draws := by unfold writeReg; split <;> first | rfl | (split <;> rfl)

end Sys2Proof.Machine
end

