-- ==== Sys2Proof/Laws/Ops.lean ====
section
/-! SUPPORT. For each shared operation of the machine, once, what it can do. -/
namespace Sys2Proof.Machine

/-! ### The slot file -/

/-- The slot just written. -/
theorem slotAt_writeSlot_same (i : Nat) (tag : Byte) (pl : List Byte) (s : State) :
    slotAt (writeSlot i tag pl s) i =
      { tag := tag, payload := pl.take (footprint tag) ++ (slotAt s i).payload.drop (footprint tag) } := by
  simp [slotAt, writeSlot]

/-- Every other slot is as before. -/
theorem slotAt_writeSlot_other {i j : Nat} (h : j ≠ i) (tag : Byte) (pl : List Byte) (s : State) :
    slotAt (writeSlot i tag pl s) j = slotAt s j := by
  simp [slotAt, writeSlot, sparseGet_set_other _ h]

/-- A slot depends on the parameters and the slot file alone. -/
theorem slotAt_congr {s t : State} (hp : t.params = s.params) (hs : t.slots = s.slots) (i : Nat) :
    slotAt t i = slotAt s i := by
  simp [slotAt, hp, hs]

theorem decodeSlot_congr {s t : State} (hp : t.params = s.params) (hs : t.slots = s.slots) (i : Nat) :
    decodeSlot t i = decodeSlot s i := by
  simp [decodeSlot, slotAt_congr hp hs]

/-- A stored image is a drawing command. -/
theorem decodeSlot_isDrawing {s : State} {n : Nat} {i : Instr} (h : decodeSlot s n = .ok i) : i.isDrawing = true :=
  decodeImage_isDrawing h

/-- HOST's write of a byte keeps XMEM canonical. -/
theorem writeXmem_wf (a : Word) (b : Byte) (s : State) (h : Memory.wf s.xmem = true) :
    Memory.wf (writeXmem a b s).xmem = true :=
  sparseWf_set xmemDefault 65536 a.toNat b s.xmem a.isLt h

/-- A write of a slot inside the slot file keeps it canonical. -/
theorem writeSlot_wf {i : Nat} (tag : Byte) (pl : List Byte) (s : State) (hi : i < s.params.capacity)
    (h : slotsWf s = true) : slotsWf (writeSlot i tag pl s) = true :=
  sparseWf_set (blankSlot s.params) s.params.capacity i _ s.slots hi h

/-! ### Where an evaluation's result goes -/

/-- `intoWb` completes with a new working byte, and one draw where the byte is free; it faults on a bad glyph, and refuses what is no
drawing command. -/
theorem intoWb_next {e : Eval} {s t : State} (h : intoWb e s = .next t) :
    (∃ b, e = .byte b ∧ t = { s with wb := b }) ∨
      (e = .unspecified ∧ t = { s with wb := freshByte s, draws := s.draws + 1 }) := by
  cases e <;> simp only [intoWb] at h <;> cases h
  · exact .inl ⟨_, rfl, rfl⟩
  · exact .inr ⟨rfl, rfl⟩

theorem intoWb_fault {e : Eval} {s : State} {f : Fault} (h : intoWb e s = .fault f) :
    e = .badGlyph ∧ f = .glyphOutsideFont := by
  cases e <;> simp only [intoWb] at h <;> cases h
  exact ⟨rfl, rfl⟩

theorem intoWb_refused {e : Eval} {s : State} {r : Refusal} (h : intoWb e s = .refused r) :
    e = .noCommand ∧ r = .undecodableSlot := by
  cases e <;> simp only [intoWb] at h <;> cases h
  exact ⟨rfl, rfl⟩

/-- `intoPOut` likewise, with `P_OUT` for the working byte. -/
theorem intoPOut_next {e : Eval} {s t : State} (h : intoPOut e s = .next t) :
    (∃ b, e = .byte b ∧ t = { s with pOut := b }) ∨
      (e = .unspecified ∧ t = { s with pOut := freshByte s, draws := s.draws + 1 }) := by
  cases e <;> simp only [intoPOut] at h <;> cases h
  · exact .inl ⟨_, rfl, rfl⟩
  · exact .inr ⟨rfl, rfl⟩

theorem intoPOut_fault {e : Eval} {s : State} {f : Fault} (h : intoPOut e s = .fault f) :
    e = .badGlyph ∧ f = .glyphOutsideFont := by
  cases e <;> simp only [intoPOut] at h <;> cases h
  exact ⟨rfl, rfl⟩

theorem intoPOut_refused {e : Eval} {s : State} {r : Refusal} (h : intoPOut e s = .refused r) :
    e = .noCommand ∧ r = .undecodableSlot := by
  cases e <;> simp only [intoPOut] at h <;> cases h
  exact ⟨rfl, rfl⟩

/-- The meaning of a drawing command is `intoWb` of its evaluation at the sweep's pixel. -/
theorem exec_drawing {i : Instr} (h : i.isDrawing = true) (s : State) :
    exec i s = intoWb (processCmd s.params s.xmem i (sweepPixel s)) s := by
  cases i <;> first | rfl | cases h

/-! ### The commands of the host -/

/-- What PUSH can do: reject with one of three causes, or append (43 R151). It always completes. -/
theorem execPush_cases (s : State) :
    ((∃ e, decodeImage s.stageTag s.stage.toList = .error e) ∧ execPush s = .next (setRejected .rsvd s)) ∨
    ∃ i, decodeImage s.stageTag s.stage.toList = .ok i ∧
      ((s.params.slotSize < footprint s.stageTag ∧ execPush s = .next (setRejected .tooBig s)) ∨
        (footprint s.stageTag ≤ s.params.slotSize ∧ s.size.toNat = s.params.capacity ∧
          execPush s = .next (setRejected .full s)) ∨
        (footprint s.stageTag ≤ s.params.slotSize ∧ s.size.toNat ≠ s.params.capacity ∧
          execPush s = .next (setAccepted
            { writeSlot s.size.toNat s.stageTag s.stage.toList s with size := s.size + 1 }))) := by
  unfold execPush raiseReject acceptPush
  cases hd : decodeImage s.stageTag s.stage.toList with
  | error e => exact .inl ⟨⟨e, rfl⟩, rfl⟩
  | ok i =>
    refine .inr ⟨i, rfl, ?_⟩
    by_cases h1 : s.params.slotSize < footprint s.stageTag
    · exact .inl ⟨h1, by simp [h1]⟩
    · by_cases h2 : s.size.toNat = s.params.capacity
      · exact .inr (.inl ⟨by omega, h2, by simp [h1, h2]⟩)
      · exact .inr (.inr ⟨by omega, h2, by simp [h1, h2]⟩)

/-- What PROCESS can do (43 R156). -/
theorem execProcess_cases (s : State) :
    (s.pIdx.toNat < s.size.toNat ∧
      ((∃ c, decodeSlot s s.pIdx.toNat = .ok c ∧
          execProcess s = intoPOut (processCmd s.params s.xmem c (hostPixel s)) s) ∨
        ((∃ e, decodeSlot s s.pIdx.toNat = .error e) ∧ execProcess s = .refused .undecodableSlot))) ∨
    (s.size.toNat ≤ s.pIdx.toNat ∧
      execProcess s = .next { s with pOut := freshByte s, draws := s.draws + 1 }) := by
  unfold execProcess
  by_cases h : s.pIdx.toNat < s.size.toNat
  · refine .inl ⟨h, ?_⟩
    cases hd : decodeSlot s s.pIdx.toNat with
    | ok c => exact .inl ⟨c, rfl, by simp [h]⟩
    | error e => exact .inr ⟨⟨e, rfl⟩, by simp [h]⟩
  · exact .inr ⟨by omega, by simp [h, intoPOut]⟩

/-! ### The sweep -/

@[simp] theorem rowBytes_def (p : Params) : rowBytes p = p.width / 8 := rfl

/-- What an emission can do: the next byte column, the next row, or the end of the pass. -/
theorem emitByte_cases (s : State) :
    (s.xg + 1 < rowBytes s.params ∧
      emitByte s = { s with out := s.out ++ [s.wb], xg := s.xg + 1, ci := 0, bi := 0, wb := 0xFF }) ∨
    (rowBytes s.params ≤ s.xg + 1 ∧ s.y + 1 < s.params.height ∧
      emitByte s = { s with out := s.out ++ [s.wb], y := s.y + 1, xg := 0, ci := 0, bi := 0, wb := 0xFF }) ∨
    (rowBytes s.params ≤ s.xg + 1 ∧ s.params.height ≤ s.y + 1 ∧
      emitByte s = endPass { s with out := s.out ++ [s.wb] }) := by
  unfold emitByte nextPosition
  by_cases h1 : s.xg + 1 < rowBytes s.params
  · left; exact ⟨h1, by simp only [h1, if_true]⟩
  · by_cases h2 : s.y + 1 < s.params.height
    · right; left; exact ⟨by omega, h2, by simp only [h1, h2, if_false, if_true]⟩
    · right; right; exact ⟨by omega, by omega, by simp only [h1, h2, if_false]⟩

/-- What ENGINE's own move can be. -/
theorem engineMove_cases (s : State) :
    (s.busy = false ∧ engineMove s = .quiet s) ∨
    (s.busy = true ∧ s.size.toNat ≤ s.ci ∧ engineMove s = .quiet (emitByte s)) ∨
    (s.busy = true ∧ s.ci < s.size.toNat ∧
      ((∃ i, decodeSlot s s.ci = .ok i ∧ engineMove s = .evaluate i s) ∨
        ((∃ e, decodeSlot s s.ci = .error e) ∧ engineMove s = .reject .undecodableSlot))) := by
  unfold engineMove foldDone
  cases hb : s.busy with
  | false => left; simp
  | true =>
    right
    by_cases h : s.size.toNat ≤ s.ci
    · left; simp [h]
    · right
      refine ⟨rfl, by omega, ?_⟩
      cases hd : decodeSlot s s.ci with
      | ok i => left; exact ⟨i, rfl, by simp [h]⟩
      | error e => right; exact ⟨⟨e, rfl⟩, by simp [h]⟩

/-- What a host write can be. -/
theorem hostWrite_cases (reg : Nat) (v : Word) (s : State) :
    (s.busy = true ∧ hostWrite reg v s = .quiet s) ∨
    (s.busy = false ∧ reg = 0 ∧ (∃ i, decodeCode (v.setWidth 8) = .ok i ∧ hostWrite reg v s = .command i s)) ∨
    (s.busy = false ∧ reg = 0 ∧ (∃ e, decodeCode (v.setWidth 8) = .error e) ∧ hostWrite reg v s = .quiet s) ∨
    (s.busy = false ∧ reg ≠ 0 ∧ hostWrite reg v s = .quiet (writeReg reg v s)) := by
  unfold hostWrite
  cases hb : s.busy with
  | true => left; simp
  | false =>
    right
    by_cases hr : reg = 0
    · cases hd : decodeCode (v.setWidth 8) with
      | ok i => left; exact ⟨rfl, hr, i, rfl, by simp [hr]⟩
      | error e => right; left; exact ⟨rfl, hr, ⟨e, rfl⟩, by simp [hr]⟩
    · right; right; exact ⟨rfl, hr, by simp [hr]⟩

/-- What one step runs, by the environment's oldest move: ENGINE's own move `t` (with the move taken off the list), a host write, a
host read, a byte into XMEM, a stall that holds an emission, or reset. -/
theorem fetch_cases (s : State) :
    (∃ t, fetch s = engineMove t ∧
      (s.env = [] ∧ t = s ∨ ∃ m rest, s.env = m :: rest ∧ t = { s with env := rest } ∧
        (m = .engine ∨ m = .sinkStall ∧ (s.busy && foldDone s) = false))) ∨
    (∃ reg v rest, s.env = .write reg v :: rest ∧ fetch s = hostWrite reg v { s with env := rest }) ∨
    (∃ reg rest, s.env = .read reg :: rest ∧
      fetch s = .quiet { s with env := rest, reads := s.reads ++ [(reg, readReg { s with env := rest } reg)] }) ∨
    (∃ a b rest, s.env = .hostXmem a b :: rest ∧ s.busy = true ∧ fetch s = .stop .xmemChangedDuringPass) ∨
    (∃ a b rest, s.env = .hostXmem a b :: rest ∧ s.busy = false ∧
      fetch s = .quiet (writeXmem a b { s with env := rest })) ∨
    (∃ rest, s.env = .sinkStall :: rest ∧ (s.busy && foldDone s) = true ∧ fetch s = .quiet { s with env := rest }) ∨
    (∃ rest, s.env = .reset :: rest ∧ fetch s = .quiet (resetEvent { s with env := rest })) := by
  unfold fetch
  cases he : s.env with
  | nil => left; exact ⟨s, rfl, .inl ⟨rfl, rfl⟩⟩
  | cons m rest =>
    have hfd : foldDone { s with env := rest } = foldDone s := rfl
    cases m with
    | write reg v => right; left; exact ⟨reg, v, rest, rfl, rfl⟩
    | read reg => right; right; left; exact ⟨reg, rest, rfl, rfl⟩
    | engine => left; exact ⟨_, rfl, .inr ⟨_, _, rfl, rfl, .inl rfl⟩⟩
    | hostXmem a b =>
      right; right; right
      cases hb : s.busy with
      | true => left; exact ⟨a, b, rest, rfl, rfl, by simp [envMove]⟩
      | false => right; left; exact ⟨a, b, rest, rfl, rfl, by simp [envMove]⟩
    | sinkStall =>
      cases hc : (s.busy && foldDone s) with
      | true =>
        right; right; right; right; right; left
        exact ⟨rest, rfl, rfl, by simp only [envMove, hfd, hc, if_true]⟩
      | false =>
        left
        exact ⟨{ s with env := rest }, by simp [envMove, hfd, hc], .inr ⟨_, _, rfl, rfl, .inr ⟨rfl, rfl⟩⟩⟩
    | reset => right; right; right; right; right; right; exact ⟨rest, rfl, rfl⟩

/-- `step` as its cases on what the fetch answers. -/
theorem step_eq (s : State) :
    step s = match fetch s with
      | .command i t => exec i t
      | .evaluate i t => thenAdvance (exec i t)
      | .quiet t => .next t
      | .stop f => .fault f
      | .reject r => .refused r := rfl

/-- A step that has a next state: a host command, an evaluation and the sweep's advance, or a move that runs no instruction. -/
theorem step_next {s t : State} (h : step s = .next t) :
    (∃ i u, fetch s = .command i u ∧ exec i u = .next t) ∨
    (∃ i u v, fetch s = .evaluate i u ∧ exec i u = .next v ∧ t = advanceSweep v) ∨
    fetch s = .quiet t := by
  rw [step_eq] at h
  cases hf : fetch s with
  | command i u => left; rw [hf] at h; exact ⟨i, u, rfl, h⟩
  | evaluate i u =>
    right; left
    rw [hf] at h
    cases he : exec i u with
    | next v => simp only [he, thenAdvance] at h; cases h; exact ⟨i, u, v, rfl, he, rfl⟩
    | fault f => simp only [he, thenAdvance] at h; cases h
    | refused r => simp only [he, thenAdvance] at h; cases h
  | quiet u => right; right; rw [hf] at h; cases h; rfl
  | stop f => rw [hf] at h; cases h
  | reject r => rw [hf] at h; cases h

/-! ### What a step changes -/

/-- An evaluation changes the working byte and the count of free values alone. -/
theorem exec_drawing_next {i : Instr} {s v : State} (hd : i.isDrawing = true) (h : exec i s = .next v) :
    ∃ w d, v = { s with wb := w, draws := d } := by
  rw [exec_drawing hd] at h
  rcases intoWb_next h with ⟨b, -, rfl⟩ | ⟨-, rfl⟩ <;> exact ⟨_, _, rfl⟩

/-- PROCESS changes `P_OUT` and the count of free values alone. -/
theorem execProcess_next {s t : State} (hx : execProcess s = .next t) :
    ∃ b d, t = { s with pOut := b, draws := d } := by
  rcases execProcess_cases s with ⟨-, ⟨c, -, h⟩ | ⟨-, h⟩⟩ | ⟨-, h⟩ <;> rw [h] at hx
  · rcases intoPOut_next hx with ⟨b, -, rfl⟩ | ⟨-, rfl⟩ <;> exact ⟨_, _, rfl⟩
  · cases hx
  · cases hx; exact ⟨_, _, rfl⟩

/-- A register write changes the host's writable registers alone. -/
theorem writeReg_cases (reg : Nat) (v : Word) (s : State) : ∃ o st stt a b c d, writeReg reg v s =
    { s with orient := o, stageTag := st, stage := stt, pIdx := a, pWb := b, pX := c, pY := d } := by
  unfold writeReg
  split
  iterate 6 exact ⟨_, _, _, _, _, _, _, rfl⟩
  split
  · exact ⟨_, _, _, _, _, _, _, rfl⟩
  · exact ⟨s.orient, s.stageTag, s.stage, s.pIdx, s.pWb, s.pX, s.pY, rfl⟩

/-- Everything a step that has a next state can do: nothing; a move of the environment with no other effect; an emission; an
evaluation and the sweep's advance; a host command; a register write; a register read, or a write that BUSY or its code makes
ignored; a byte into XMEM; the reset event. -/
theorem step_cases {s t : State} (h : step s = .next t) :
    (s.busy = false ∧ s.env = [] ∧ t = s) ∨
    (s.busy = false ∧ ∃ m rest, s.env = m :: rest ∧ t = { s with env := rest }) ∨
    (∃ u, (u = s ∨ ∃ e, u = { s with env := e }) ∧ s.busy = true ∧ s.size.toNat ≤ s.ci ∧ t = emitByte u) ∨
    (∃ u w d, (u = s ∨ ∃ e, u = { s with env := e }) ∧ s.busy = true ∧ s.ci < s.size.toNat ∧
      t = advanceSweep { u with wb := w, draws := d }) ∨
    (s.busy = false ∧ ∃ v rest i, s.env = .write 0 v :: rest ∧ decodeCode (v.setWidth 8) = .ok i ∧
      exec i { s with env := rest } = .next t) ∨
    (s.busy = false ∧ ∃ e o st stt a b c d,
      t = { s with env := e, orient := o, stageTag := st, stage := stt, pIdx := a, pWb := b, pX := c, pY := d }) ∨
    (∃ e r, t = { s with env := e, reads := r }) ∨
    (s.busy = false ∧ ∃ a b rest, s.env = .hostXmem a b :: rest ∧ t = writeXmem a b { s with env := rest }) ∨
    (∃ rest, s.env = .reset :: rest ∧ t = resetEvent { s with env := rest }) := by
  have sn := step_next h
  have quiet : ∀ {u}, fetch s = .quiet u → t = u := by
    intro u hf
    rcases sn with ⟨j, v, h1, -⟩ | ⟨j, v, w, h1, -⟩ | h1 <;> rw [hf] at h1 <;> cases h1
    rfl
  rcases fetch_cases s with ⟨u, hf, hu⟩ | ⟨reg, v, rest, he, hf⟩ | ⟨reg, rest, he, hf⟩ | ⟨a, b, rest, he, hb, hf⟩ |
    ⟨a, b, rest, he, hb, hf⟩ | ⟨rest, he, hb, hf⟩ | ⟨rest, he, hf⟩
  · have hb : u.busy = s.busy := by rcases hu with ⟨-, rfl⟩ | ⟨m, r, -, rfl, -⟩ <;> rfl
    have hs : u.size = s.size := by rcases hu with ⟨-, rfl⟩ | ⟨m, r, -, rfl, -⟩ <;> rfl
    have hc : u.ci = s.ci := by rcases hu with ⟨-, rfl⟩ | ⟨m, r, -, rfl, -⟩ <;> rfl
    have hu' : u = s ∨ ∃ e, u = { s with env := e } := by
      rcases hu with ⟨-, h⟩ | ⟨m, r, -, h, -⟩
      · exact .inl h
      · exact .inr ⟨_, h⟩
    rcases engineMove_cases u with ⟨hb', he⟩ | ⟨hb', hle, he⟩ | ⟨hb', hlt, ⟨i, hd, he⟩ | ⟨-, he⟩⟩ <;> rw [he] at hf
    · cases quiet hf
      rcases hu with ⟨h9, rfl⟩ | ⟨m, r, h9, rfl, -⟩
      · exact .inl ⟨hb', h9, rfl⟩
      · exact .inr (.inl ⟨hb', m, r, h9, rfl⟩)
    · exact .inr (.inr (.inl ⟨u, hu', hb ▸ hb', hs ▸ hc ▸ hle, quiet hf⟩))
    · rcases sn with ⟨j, v, h1, -⟩ | ⟨j, v, w, h1, hx, rfl⟩ | h1 <;> rw [hf] at h1 <;> cases h1
      obtain ⟨x, y, rfl⟩ := exec_drawing_next (decodeSlot_isDrawing hd) hx
      exact .inr (.inr (.inr (.inl ⟨u, x, y, hu', hb ▸ hb', hs ▸ hc ▸ hlt, rfl⟩)))
    · rcases sn with ⟨j, v, h1, -⟩ | ⟨j, v, w, h1, -⟩ | h1 <;> rw [hf] at h1 <;> cases h1
  · rcases hostWrite_cases reg v { s with env := rest } with ⟨hb, hw⟩ | ⟨hb, rfl, ⟨i, hd, hw⟩⟩ | ⟨hb, hr, -, hw⟩ |
      ⟨hb, hr, hw⟩ <;> rw [hw] at hf
    · have := quiet hf
      right; right; right; right; right; right; left
      exact ⟨rest, s.reads, this⟩
    · rcases sn with ⟨j, u, h1, hx⟩ | ⟨j, u, w, h1, -⟩ | h1 <;> rw [hf] at h1 <;> cases h1
      right; right; right; right; left
      exact ⟨hb, v, rest, i, he, hd, hx⟩
    · have := quiet hf
      right; right; right; right; right; right; left
      exact ⟨rest, s.reads, this⟩
    · have := quiet hf
      right; right; right; right; right; left
      obtain ⟨o, st, stt, a, b, c, d, hh⟩ := writeReg_cases reg v { s with env := rest }
      rw [hh] at this
      exact ⟨hb, rest, o, st, stt, a, b, c, d, this⟩
  · have := quiet hf
    right; right; right; right; right; right; left
    exact ⟨rest, _, this⟩
  · rcases sn with ⟨j, v, h1, -⟩ | ⟨j, v, w, h1, -⟩ | h1 <;> rw [hf] at h1 <;> cases h1
  · have := quiet hf
    right; right; right; right; right; right; right; left
    exact ⟨hb, a, b, rest, he, this⟩
  · have := quiet hf
    right; right; right; right; right; right; left
    exact ⟨rest, s.reads, this⟩
  · have := quiet hf
    right; right; right; right; right; right; right; right
    exact ⟨rest, he, this⟩

/-- The invariant reads only these fields. -/
theorem Inv.congr {s t : State} (h : Inv s) (h1 : t.params = s.params) (h2 : t.slots = s.slots) (h3 : t.size = s.size)
    (h4 : t.rej = s.rej) (h5 : t.cause = s.cause) (h6 : Memory.wf t.xmem = true)
    (h7 : t.busy = true → SweepInRange t) : Inv t where
  size_le := by rw [h1, h3]; exact h.size_le
  slots_decode := by
    intro i hi
    rw [h3] at hi
    rw [decodeSlot_congr h1 h2, slotAt_congr h1 h2, h1]; exact h.slots_decode i hi
  payloads_fit := by intro i; rw [slotAt_congr h1 h2, h1]; exact h.payloads_fit i
  cause_rej := by rw [h4, h5]; exact h.cause_rej
  sweep := h7
  slots_wf := by unfold slotsWf; rw [h1, h2]; exact h.slots_wf
  xmem_wf := h6

end Sys2Proof.Machine
end

