-- ==== Sys2Proof/Laws/Pass.lean ====
section
/-! SUPPORT. The small laws of runs and of the loop nest's lists. -/
namespace Sys2Proof.Machine

/-! ### Runs -/

theorem core_run_zero (s : State) : Sys2Proof.core.run 0 s = .next s := rfl

/-- One step as a run. -/
theorem core_run_one (s : State) : (Sys2Proof.core.run 1 s : Host.Outcome State Fault Refusal) = step s := by
  simp only [Host.Core.run]
  have h : Sys2Proof.core.step s = step s := rfl
  cases h' : step s with
  | next t => rw [h'] at h; rw [h]; rfl
  | fault f => rw [h'] at h; rw [h]; rfl
  | refused r => rw [h'] at h; rw [h]; rfl

/-- A run in two parts. -/
theorem core_run_add (a b : Nat) (s : State) :
    (Sys2Proof.core.run (a + b) s : Host.Outcome State Fault Refusal) =
      match (Sys2Proof.core.run a s : Host.Outcome State Fault Refusal) with
      | .next t => Sys2Proof.core.run b t
      | .fault f => .fault f
      | .refused r => .refused r := by
  induction a generalizing s with
  | zero => rw [Nat.zero_add]; rfl
  | succ a ih =>
    rw [Nat.succ_add]
    simp only [Host.Core.run]
    cases h : Sys2Proof.core.step s with
    | next t => exact ih t
    | fault f => rfl
    | refused r => rfl

/-! ### The positions of a pass -/

theorem positions_length (p : Params) : (positions p).length = p.width / 8 * p.height := by
  simp [positions, rowBytes, List.length_flatMap, Nat.mul_comm]

/-- The position of row `y` and byte column `xg` is number `y * (W/8) + xg` (44 R173). -/
theorem positions_getElem {p : Params} {y xg : Nat} (hx : xg < p.width / 8) (hy : y < p.height) :
    (positions p)[y * (p.width / 8) + xg]? = some (y, xg) := by
  have grid : ∀ n m : Nat, xg < m → y < n →
      ((List.range n).flatMap (fun y => (List.range m).map (fun xg => (y, xg))))[y * m + xg]? = some (y, xg) := by
    intro n m hx hy
    induction n with
    | zero => omega
    | succ n ih =>
      rw [List.range_succ, List.flatMap_append]
      have hl : ((List.range n).flatMap (fun y => (List.range m).map (fun xg => (y, xg)))).length = n * m := by
        simp [List.length_flatMap]
      by_cases h : y < n
      · have h1 : (y + 1) * m ≤ n * m := Nat.mul_le_mul_right _ h
        have h2 : (y + 1) * m = y * m + m := by ring
        rw [List.getElem?_append_left (by omega)]
        exact ih h
      · obtain rfl : y = n := by omega
        rw [List.getElem?_append_right (by omega), hl]
        simp [hx]
  exact grid _ _ hx hy

/-- `mapM` in `Option` succeeds exactly where every element does. -/
theorem mapM_eq_some {α β : Type} (f : α → Option β) (l : List α) (r : List β) :
    l.mapM f = some r ↔ l.map f = r.map some := by
  induction l generalizing r with
  | nil => cases r <;> simp
  | cons a l ih =>
    rw [List.mapM_cons]
    cases hf : f a with
    | none => cases r <;> simp [hf]
    | some b =>
      cases hl : l.mapM f with
      | none =>
        cases r with
        | nil => simp
        | cons c r =>
          simp only [Option.bind_eq_bind, Option.bind_some, Option.bind_none, List.map_cons, hf, List.cons.injEq,
            Option.some.injEq, reduceCtorEq, false_iff, not_and]
          intro _ h
          rw [(ih r).mpr h] at hl
          cases hl
      | some bs =>
        cases r with
        | nil => simp
        | cons c r =>
          simp only [Option.bind_eq_bind, Option.bind_some, Option.pure_def, Option.some.injEq, List.cons.injEq,
            List.map_cons, hf, and_congr_right_iff]
          intro _
          rw [← ih, hl]
          simp

end Sys2Proof.Machine
end

