-- ==== Sys2Proof/Laws/PerInstr.lean ====
section
/-! SUPPORT. The rows of spec/opcode_table.json, per instruction: the bytes a row's mask and match fix, and its width, against the
encoder. -/
namespace Sys2Proof.Laws.TableRow

/-- The bytes the row's `mask` covers with their values in `match`, by byte offset in the image: its TAG or host command code,
and for a Rectangle or Circle row its FLAGS. -/
def fixedBytes : Instr → List (Nat × Byte)
  | .point _ _ => [(0, 0x01)]
  | .line _ _ _ _ => [(0, 0x02)]
  | .rectF _ _ _ _ => [(0, 0x03), (9, 0x01)]
  | .rectO _ _ _ _ => [(0, 0x03), (9, 0x00)]
  | .circleF _ _ _ => [(0, 0x04), (7, 0x01)]
  | .circleO _ _ _ => [(0, 0x04), (7, 0x00)]
  | .text _ _ _ _ _ _ => [(0, 0x05)]
  | .raw _ => [(0, 0x06)]
  | .push => [(0, 0x01)]
  | .pop => [(0, 0x02)]
  | .process => [(0, 0x03)]
  | .render => [(0, 0x04)]

/-- The row's `width_bits`. -/
def widthBits : Instr → Nat
  | .point _ _ => 40
  | .line _ _ _ _ => 72
  | .rectF _ _ _ _ => 80
  | .rectO _ _ _ _ => 80
  | .circleF _ _ _ => 64
  | .circleO _ _ _ => 64
  | .text _ _ _ _ _ _ => 96
  | .raw _ => 24
  | .push => 8
  | .pop => 8
  | .process => 8
  | .render => 8

/-- The encoding of `i` lies in its row of the opcode table: the row's width, and the row's value in every byte the row fixes. -/
def Statement (i : Instr) : Prop :=
  8 * (encode i).length = widthBits i ∧ ∀ e ∈ fixedBytes i, (encode i)[e.1]? = some e.2

theorem point (px py : Word) : Statement (.point px py) := by
  simp [Statement, encode, encodePayload, leadByte, fieldBytes, fixedBytes, widthBits]

theorem line (x0 y0 x1 y1 : Word) : Statement (.line x0 y0 x1 y1) := by
  simp [Statement, encode, encodePayload, leadByte, fieldBytes, fixedBytes, widthBits]

theorem rectF (x y w h : Word) : Statement (.rectF x y w h) := by
  simp [Statement, encode, encodePayload, leadByte, fieldBytes, fixedBytes, widthBits]

theorem rectO (x y w h : Word) : Statement (.rectO x y w h) := by
  simp [Statement, encode, encodePayload, leadByte, fieldBytes, fixedBytes, widthBits]

theorem circleF (cx cy r : Word) : Statement (.circleF cx cy r) := by
  simp [Statement, encode, encodePayload, leadByte, fieldBytes, fixedBytes, widthBits]

theorem circleO (cx cy r : Word) : Statement (.circleO cx cy r) := by
  simp [Statement, encode, encodePayload, leadByte, fieldBytes, fixedBytes, widthBits]

theorem text (x y str fnt len : Word) (scale : Byte) : Statement (.text x y str fnt len scale) := by
  simp [Statement, encode, encodePayload, leadByte, fieldBytes, fixedBytes, widthBits]

theorem raw (buf : Word) : Statement (.raw buf) := by
  simp [Statement, encode, encodePayload, leadByte, fieldBytes, fixedBytes, widthBits]

theorem push : Statement .push := by
  simp [Statement, encode, encodePayload, leadByte, fixedBytes, widthBits]

theorem pop : Statement .pop := by
  simp [Statement, encode, encodePayload, leadByte, fixedBytes, widthBits]

theorem process : Statement .process := by
  simp [Statement, encode, encodePayload, leadByte, fixedBytes, widthBits]

theorem render : Statement .render := by
  simp [Statement, encode, encodePayload, leadByte, fixedBytes, widthBits]

end Sys2Proof.Laws.TableRow
end

