-- ==== Sys2Proof/Tests/Slice0.lean ====
section
/-! SUPPORT. The model's own tests. Expected results come from spec/95_test_vectors.md and from the rules, by hand; each test names
its source. After them, for every statement with hypotheses, a state and operands that meet them. -/

namespace Sys2Proof.Machine.Tests

open Sys2Proof Sys2Proof.Machine

/-! ### Small states -/

/-- The device of most vectors: 16 by 8, two slots of 11 bytes. -/
def p16x8 : Params := { width := 16, height := 8, capacity := 2, slotSize := 11 }

/-- The block on that device, after reset. -/
def block : State := { State.reset with params := p16x8 }

/-- The font and strings `XM1` of 95. -/
def xm1 : List Host.Cell :=
  [(0x100, 0x10), (0x101, 1), (0x102, 3), (0x103, 5), (0x104, 2), (0x105, 0x41),
   (0x110, 0x1E), (0x111, 5), (0x112, 0x1E), (0x113, 0x1F), (0x114, 0x15), (0x115, 0x0A),
   (0x200, 0x41), (0x201, 0x42)]

/-- The bitmap of 95 V-B. -/
def xmRaw : List Host.Cell := [(0x300, 0xAA), (0x301, 0x55), (0x302, 0x0F), (0x303, 0xF0)]

/-- A sweep about to evaluate the pixel `(x, y)` under orientation `o`, one command in the buffer. -/
def sweepAt (o : BitVec 2) (x y : Nat) (wb : Byte) : State :=
  { block with size := 1, busy := true, orient := o, orientAct := o, xg := x / 8, bi := x % 8, y := y, wb := wb }

/-- The same with the memory `XM1`, on a device of 16 by 16. -/
def sweepText (o : BitVec 2) (x y : Nat) : State :=
  { sweepAt o x y 0xFF with params := { width := 16, height := 16, capacity := 2, slotSize := 11 }, xmem := xm1 }

/-- Slot 0 holds `POINT 3, 1`. -/
def pointSlot : List (Nat × Slot) := [(0, { tag := 1, payload := [3, 0, 1, 0, 0, 0, 0, 0, 0, 0, 0] })]

/-- One command in the buffer, `POINT 3, 1`, ENGINE idle. -/
def onePoint : State := { block with size := 1, slots := pointSlot }

/-- The same in the last evaluation of a byte. -/
def sweeping : State := { onePoint with busy := true, wb := 0xFF, bi := 7, xg := 1, y := 7 }

/-- The same with the emission of the last byte of the pass due. -/
def emitting : State := { sweeping with ci := 1, bi := 0 }

/-- One command in the buffer, `RAW 0x0300`, and `PROCESS` registers that name it at the pixel `(16, 0)`, just off the device. -/
def oneRaw : State :=
  { block with size := 1, slots := [(0, { tag := 6, payload := [0, 3, 0, 0, 0, 0, 0, 0, 0, 0, 0] })], pX := 16, xmem := xmRaw }

/-- `POINT 3, 1` staged. -/
def staged : State := { block with stageTag := 1, stage := #v[3, 0, 1, 0, 0, 0, 0, 0, 0, 0, 0] }

/-- A Text image staged, of 11 bytes: the largest footprint. -/
def stagedText : State := { block with stageTag := 5, stage := #v[2, 0, 3, 0, 0, 2, 0, 1, 2, 0, 1] }

/-- What a test looks at in an outcome. -/
def field {α : Type} (f : State → α) (r : Host.Outcome State Fault Refusal) : Option α :=
  match r with
  | .next t => some (f t)
  | .fault _ => none
  | .refused _ => none

/-- The fault an outcome is. -/
def faultOf (r : Host.Outcome State Fault Refusal) : Option Fault :=
  match r with
  | .next _ => none
  | .fault f => some f
  | .refused _ => none

/-! ### WellFormed -/

/-- 30 R72: SCALE 0 is no command; SCALE 1 and 255 are (R73). -/
theorem test_wf_scale_zero : (Instr.text 2 3 0x0200 0x0100 2 0).wf = false := by decide
theorem test_wf_scale_ends :
    (Instr.text 2 3 0x0200 0x0100 2 1).wf = true ∧ (Instr.text 2 3 0x0200 0x0100 2 255).wf = true := by decide

/-! ### Decoding: the images of 95 V-E, byte by byte -/

theorem test_decode_point : decodeBytes [0x01, 0x03, 0x00, 0x01, 0x00] = .ok (.point 3 1) := by decide
theorem test_decode_point_negative : decodeBytes [0x01, 0xFF, 0xFF, 0x00, 0x80] = .ok (.point (-1) (-32768)) := by decide
theorem test_decode_line :
    decodeBytes [0x02, 0x00, 0x00, 0x02, 0x00, 0x09, 0x00, 0x02, 0x00] = .ok (.line 0 2 9 2) := by decide
theorem test_decode_rectF :
    decodeBytes [0x03, 0x02, 0x00, 0x06, 0x00, 0x02, 0x00, 0x04, 0x00, 0x01] = .ok (.rectF 2 6 2 4) := by decide
theorem test_decode_rectO :
    decodeBytes [0x03, 0x0A, 0x00, 0x03, 0x00, 0x04, 0x00, 0x03, 0x00, 0x00] = .ok (.rectO 10 3 4 3) := by decide
theorem test_decode_circleF :
    decodeBytes [0x04, 0x04, 0x00, 0x05, 0x00, 0x02, 0x00, 0x01] = .ok (.circleF 4 5 2) := by decide
theorem test_decode_circleO :
    decodeBytes [0x04, 0x08, 0x00, 0x04, 0x00, 0x03, 0x00, 0x00] = .ok (.circleO 8 4 3) := by decide
theorem test_decode_text :
    decodeBytes [0x05, 0x02, 0x00, 0x03, 0x00, 0x00, 0x02, 0x00, 0x01, 0x02, 0x00, 0x01] =
      .ok (.text 2 3 0x0200 0x0100 2 1) := by decide
theorem test_decode_raw : decodeBytes [0x06, 0x00, 0x03] = .ok (.raw 0x0300) := by decide
/-- 30 R75, R76. -/
theorem test_decode_codes :
    decodeBytes [0x01] = .ok .push ∧ decodeBytes [0x02] = .ok .pop ∧ decodeBytes [0x03] = .ok .process ∧
    decodeBytes [0x04] = .ok .render ∧ decodeBytes [0x00] = .error .reservedCode ∧
    decodeBytes [0x05] = .error .reservedCode := by decide
/-- 95 V-E, reserved images. -/
theorem test_decode_reserved :
    decodeBytes [0x00, 0x00, 0x00] = .error .reservedTag ∧ decodeBytes [0x07, 0x00, 0x00] = .error .reservedTag ∧
    decodeBytes [0x03, 1, 0, 1, 0, 2, 0, 1, 0, 0x02] = .error .reservedFlags ∧
    decodeBytes [0x04, 8, 0, 4, 0, 3, 0, 0x81] = .error .reservedFlags ∧
    decodeBytes [0x05, 2, 0, 3, 0, 0, 2, 0, 1, 2, 0, 0] = .error .zeroScale ∧
    decodeBytes [0x01, 3, 0, 1] = .error .truncated := by decide

/-- The first instruction after reset, placed by `withFetchWord` (log entry 18); a `STAGE_TAG` of 0 (log entry 2) is reserved. -/
theorem test_place_line :
    (field (fun t => t.bi) (step (State.reset.withFetchWord 72 0x02))) = some 1 := by decide
theorem test_place_push :
    (field (fun t => t.rej) (step (State.reset.withFetchWord 8 0x01))) = some true := by decide

/-! ### The drawing commands, one evaluation each -/

/-- 95 V-P. -/
theorem test_point : field (·.wb) (exec (.point 3 1) (sweepAt 0 3 1 0xFF)) = some 0xEF := by decide
theorem test_point_turned : field (·.wb) (exec (.point 3 1) (sweepAt 2 13 7 0xFF)) = some 0xFB := by decide
/-- 95 V-L: the far end is inclusive; under orientation 1 the anchor alone is transformed. -/
theorem test_line : field (·.wb) (exec (.line 0 2 9 2) (sweepAt 0 9 2 0xFF)) = some 0xBF := by decide
theorem test_line_turned : field (·.wb) (exec (.line 2 3 5 3) (sweepAt 1 15 6 0xFF)) = some 0xFE := by decide
/-- 95 S1: the far corner is inclusive; one pixel further is not owned. -/
theorem test_rectF : field (·.wb) (exec (.rectF 1 1 2 1) (sweepAt 0 3 2 0xFF)) = some 0xEF := by decide
theorem test_rectF_outside : field (·.wb) (exec (.rectF 1 1 2 1) (sweepAt 0 4 2 0xFF)) = some 0xFF := by decide
/-- 95 V-R: the interior is not owned, the right edge is. -/
theorem test_rectO_interior : field (·.wb) (exec (.rectO 1 1 3 3) (sweepAt 0 2 2 0xFF)) = some 0xFF := by decide
theorem test_rectO_edge : field (·.wb) (exec (.rectO 1 1 3 3) (sweepAt 0 4 2 0xFF)) = some 0xF7 := by decide
/-- 95 S3. -/
theorem test_circleF : field (·.wb) (exec (.circleF 8 4 3) (sweepAt 0 11 4 0xFF)) = some 0xEF := by decide
theorem test_circleF_outside : field (·.wb) (exec (.circleF 8 4 3) (sweepAt 0 11 5 0xFF)) = some 0xFF := by decide
/-- 95 V-C. -/
theorem test_circleO : field (·.wb) (exec (.circleO 8 4 3) (sweepAt 0 11 5 0xFF)) = some 0xEF := by decide
theorem test_circleO_inside : field (·.wb) (exec (.circleO 8 4 3) (sweepAt 0 10 5 0xFF)) = some 0xFF := by decide
/-- 95 V-T3, row 3: `B` comes first, its spacing column last. -/
theorem test_text_turned :
    field (·.wb) (exec (.text 14 13 0x0200 0x0100 2 1) (sweepText 2 4 3)) = some 0xF7 ∧
    field (·.wb) (exec (.text 14 13 0x0200 0x0100 2 1) (sweepText 2 5 3)) = some 0xFF := by decide
/-- 95 V-T5, and 93 U4: a character outside the font. -/
theorem test_text :
    field (·.wb) (exec (.text 2 3 0x0200 0x0100 2 1) (sweepText 0 3 3)) = some 0xEF ∧
    field (·.wb) (exec (.text 2 3 0x0200 0x0100 2 1) (sweepText 0 2 3)) = some 0xFF ∧
    faultOf (exec (.text 2 3 0x0202 0x0100 1 1) (sweepText 0 2 3)) = some .glyphOutsideFont := by decide
/-- 95 V-B, under orientation 3 too. -/
theorem test_raw :
    field (·.wb) (exec (.raw 0x0300) { sweepAt 0 9 1 0x00 with xmem := xmRaw }) = some 0xF0 := by decide
theorem test_raw_turned :
    field (·.wb) (exec (.raw 0x0300) { sweepAt 3 0 0 0x12 with xmem := xmRaw }) = some 0xAA := by decide

/-! ### The host commands -/

/-- 95 S4: accepted, then FULL. -/
theorem test_push :
    field (fun t => (statusByte t, t.size, decodeSlot t 0)) (exec .push staged) = some (0x00, 1, .ok (.point 3 1)) := by
  decide
theorem test_push_full :
    field (fun t => (statusByte t, t.size)) (exec .push { staged with size := 2 }) = some (0x06, 2) := by decide
/-- 95 P5, steps 10 and 12. -/
theorem test_pop : field (·.size) (exec .pop { onePoint with size := 2 }) = some 1 := by decide
theorem test_pop_empty : field (·.size) (exec .pop block) = some 0 := by decide
/-- 95 V-Q. -/
theorem test_process :
    field (·.pOut) (exec .process { onePoint with pWb := 0xFF, pX := 3, pY := 1 }) = some 0xEF := by decide
theorem test_process_turned :
    field (·.pOut) (exec .process { onePoint with orient := 2, pWb := 0xFF, pX := 13, pY := 7 }) = some 0xFB := by decide
/-- 44 R170, R171: BUSY is set and the orientation latched; 95 V-N: a byte no command draws in is emitted blank. -/
theorem test_render :
    field (fun t => (statusByte t, t.orientAct)) (exec .render { onePoint with orient := 3 }) = some (0x01, 3) := by decide
theorem test_render_blank : field (·.out) (step { block with busy := true, wb := 0xFF }) = some [0xFF] := by decide

/-! ### The operations -/

/-- 95 V-X. -/
theorem test_transform :
    transform p16x8 1 3 1 = (15, 5) ∧ transform p16x8 2 3 1 = (13, 7) ∧ transform p16x8 3 3 1 = (1, 3) ∧
    transform p16x8 1 (-32768) 32767 = (-32751, 32776) := by decide
/-- 00 R4, R6. -/
theorem test_mask : mask 0 = 0x80 ∧ mask 11 = 0x10 ∧ mask (-1) = 0x01 ∧ posmod (-1) 6 = 5 ∧ tdiv 7 6 = 1 := by decide
/-- 20 R43, R44: addresses wrap. -/
theorem test_xread : xread [(0, 7), (0xFFFF, 9)] 65536 = 7 ∧ xread [(0, 7), (0xFFFF, 9)] (-1) = 9 ∧
    xread16 [(0, 7), (0xFFFF, 9)] 0xFFFF = 0x0709 := by decide
/-- Writing what an unlisted address reads as removes the entry. -/
theorem test_xmem_canonical :
    (writeXmem 0x0300 0 (writeXmem 0x0300 5 block)).xmem = [] ∧
    (writeXmem 2 5 (writeXmem 9 5 block)).xmem = [(2, 5), (9, 5)] := by decide

/-! ### Hypotheses that something meets

For every statement with hypotheses, states and operands that meet them together, at the ends of their ranges. -/

theorem test_meets_DecodeOfEncodeIsTheCommand :
    (Instr.text 2 3 0x0200 0x0100 2 1).WellFormed ∧ (Instr.text 2 3 0x0200 0x0100 2 1).isDrawing = true := by decide

theorem test_meets_EncodeOfDecodeIsTheImage : decodeImage 6 [0x00, 0x03, 0x55] = .ok (.raw 0x0300) := by decide

theorem test_meets_ReservedImagesAreRejected :
    decodeImage 0 block.stage.toList = .error .reservedTag ∧ decodeImage 7 block.stage.toList = .error .reservedTag ∧
    decodeImage 0xFF block.stage.toList = .error .reservedTag ∧
    decodeImage 3 [0, 0, 0, 0, 0, 0, 0, 0, 2, 0, 0] = .error .reservedFlags ∧
    decodeImage 4 [0, 0, 0, 0, 0, 0, 0x80, 0, 0, 0, 0] = .error .reservedFlags ∧
    decodeImage 5 block.stage.toList = .error .zeroScale := by decide

theorem test_meets_TransformEdges : 1 < rowBytes p16x8 ∧ 7 < 8 ∧ 7 < p16x8.height := by decide

theorem test_meets_ClearDrawsOnePixel : 0 < 8 ∧ 7 < 8 := by decide

theorem test_meets_PointOwnsItsPixel : let s := sweepAt 1 15 5 0xFF
    (15 : Int) = 8 * s.xg + s.bi ∧ (5 : Int) = s.y ∧
      ((15, 5) : Int × Int) = transform s.params s.orientAct (3 : Word).toInt (1 : Word).toInt := by decide

theorem test_meets_LineOwnsItsRun : let s := sweepAt 1 15 6 0xFF
    (15 : Int) = 8 * s.xg + s.bi ∧ (6 : Int) = s.y ∧
      ((13, 6) : Int × Int) = transform s.params s.orientAct (2 : Word).toInt (3 : Word).toInt := by decide

theorem test_meets_LineCornerCases :
    (1 : Word) ≠ 4 ∧ (1 : Word) ≠ 5 ∧ (2 : Word).toInt < (9 : Word).toInt ∧ (-1 : Word).toInt < (0 : Word).toInt := by decide

theorem test_meets_FilledRectangleOwnsItsBox : let s := sweepAt 0 3 2 0xFF
    (3 : Int) = 8 * s.xg + s.bi ∧ (2 : Int) = s.y ∧
      ((1, 1) : Int × Int) = transform s.params s.orientAct (1 : Word).toInt (1 : Word).toInt := by decide

theorem test_meets_OutlineRectangleOwnsItsEdges : let s := sweepAt 3 1 2 0xFF
    (1 : Int) = 8 * s.xg + s.bi ∧ (2 : Int) = s.y ∧
      ((1, 2) : Int × Int) = transform s.params s.orientAct (2 : Word).toInt (1 : Word).toInt := by decide

theorem test_meets_OutlineIsTheBoundary :
    ((13, 2) : Int × Int) = transform p16x8 2 (3 : Word).toInt (6 : Word).toInt ∧ 0 ≤ (0 : Word).toInt ∧
      (1 : Word).toInt ≤ 1 ∧ (-1 : Word).toInt < 0 ∧ (-32768 : Word).toInt < 0 := by decide

theorem test_meets_OutlineIsFourLines : let q : Pixel := { wb := 0xFF, x := 0, y := 0, o := 0 }
    q.o = 0 ∧ (32766 + 1 : Word).toInt = (32766 : Word).toInt + (1 : Word).toInt ∧
      (-32767 + -1 : Word).toInt = (-32767 : Word).toInt + (-1 : Word).toInt := by decide

theorem test_meets_FilledCircleOwnsItsDisc : let s := sweepAt 0 11 4 0xFF
    (11 : Int) = 8 * s.xg + s.bi ∧ (4 : Int) = s.y ∧
      ((8, 4) : Int × Int) = transform s.params s.orientAct (8 : Word).toInt (4 : Word).toInt := by decide

theorem test_meets_OutlineCircleOwnsItsRing : let s := sweepAt 2 11 5 0xFF
    (11 : Int) = 8 * s.xg + s.bi ∧ (5 : Int) = s.y ∧
      ((8, 4) : Int × Int) = transform s.params s.orientAct (8 : Word).toInt (4 : Word).toInt ∧
      (10 : Int) = (11 - 8) * (11 - 8) + (5 - 4) * (5 - 4) := by decide

/-- The last byte position of the device, and the first byte column off it. -/
theorem test_meets_RawReplacesTheByte : let s := sweepAt 0 15 7 0xFF
    (s.xg < rowBytes s.params ∧ s.bi < 8 ∧ s.y < s.params.height) ∧
      let t := sweepAt 0 16 7 0xFF
      ¬ (8 * t.xg + t.bi < t.params.width ∧ t.y < t.params.height) := by decide

theorem test_string_in_font : StringInFont xm1 0x0200 0x0100 2 := by unfold StringInFont; decide

/-- The font of `XM1`. -/
def font1 : Font := readFont xm1 0x0100

/-- 95 V-T1 to V-T4: the anchor (2, 3) and the pixel (3, 3) in all four orientations. -/
theorem test_meets_TextDrawsTheGlyphBits :
    (1 : Byte) ≠ 0 ∧ font1 = readFont (sweepText 0 3 3).xmem 0x0100 ∧
    ((2, 3) : Int × Int) = transform (sweepText 0 3 3).params 0 (2 : Word).toInt (3 : Word).toInt ∧
    ((2, 3) : Int × Int) = transform (sweepText 1 3 3).params 1 (13 : Word).toInt (14 : Word).toInt ∧
    ((2, 3) : Int × Int) = transform (sweepText 2 3 3).params 2 (14 : Word).toInt (13 : Word).toInt ∧
    ((2, 3) : Int × Int) = transform (sweepText 3 3 3).params 3 (3 : Word).toInt (2 : Word).toInt ∧
    (3 : Int) = 8 * (sweepText 0 3 3).xg + (sweepText 0 3 3).bi ∧ (3 : Int) = (sweepText 0 3 3).y := by decide

/-- A bit of a glyph under each orientation: `(u, v)` is `(1, 0)` under 0 and 2, `(0, 1)` under 1 and 3; the characters are in the
font's range. Last, the row beyond the glyph, `v = 5` (42 R140 (d)). -/
theorem test_meets_TextDrawsTheGlyphBits_glyph :
    GlyphAt 0 font1 2 1 1 0 0 1 0 ∧ GlyphAt 1 font1 2 1 0 1 0 0 3 ∧ GlyphAt 2 font1 2 1 1 0 1 1 4 ∧
    GlyphAt 3 font1 2 1 0 1 1 2 1 ∧ GlyphAt 0 font1 2 1 1 5 0 1 5 ∧
    CharInFont xm1 0x0200 font1 0 ∧ CharInFont xm1 0x0200 font1 1 :=
  ⟨⟨0, 1, 0, 0, 0, by decide⟩, ⟨0, 0, 1, 0, 0, by decide⟩, ⟨0, 1, 0, 0, 0, by decide⟩, ⟨0, 0, 1, 0, 0, by decide⟩,
    ⟨0, 1, 5, 0, 0, by decide⟩, by decide, by decide⟩

/-- No bit of a glyph: before the string, in a spacing column, at a row whose bit is not in the byte. -/
theorem test_meets_TextDrawsTheGlyphBits_outside (ci c bi : Int) :
    ¬ GlyphAt 0 font1 2 1 (-1) 0 ci c bi ∧ ¬ GlyphAt 0 font1 2 1 3 0 ci c bi ∧ ¬ GlyphAt 1 font1 2 1 0 5 ci c bi := by
  have hw : font1.gw = 3 := by decide
  have hh : font1.gh = 5 := by decide
  refine ⟨?_, ?_, ?_⟩ <;> rintro ⟨gi, j, rr, a, e, h⟩ <;> rw [hw, hh] at h
  · omega
  · omega
  · have := h.2.2.2.2.2.2.2.2.2.2.2.2.2.2.1 rfl
    omega

theorem test_meets_EmptyTextDrawsNothing :
    (255 : Byte) ≠ 0 ∧ (0 : Word) = 0 ∧ xread block.xmem ((0x0100 : Word).toNat + 2) = 0 := by decide

/-- The string at 0x0201: `B`, in the font, then the byte 0, which is not; the pixels (3, 3) and (7, 3) from the anchor (2, 3). -/
theorem test_meets_TextFaultsOnlyOutsideTheFont :
    (GlyphAt 0 font1 2 1 5 0 1 1 0 ∧ ¬ CharInFont xm1 0x0201 font1 1 ∧
      ((5, 0) : Int × Int) = ((7, 3) : Int × Int) - transform (sweepText 0 7 3).params 0 (2 : Word).toInt (3 : Word).toInt) ∧
    (∀ ci c bi : Int, GlyphAt 0 font1 2 1 1 0 ci c bi → CharInFont xm1 0x0201 font1 ci) ∧
    StringInFont xm1 0x0200 0x0100 2 := by
  refine ⟨⟨⟨1, 1, 0, 0, 0, by decide⟩, by decide, by decide⟩, ?_, test_string_in_font⟩
  rintro ci c bi ⟨gi, j, rr, a, e, h⟩
  rw [show font1.gw = 3 by decide, show font1.gh = 5 by decide] at h
  obtain rfl : ci = 0 := by
    have := h.2.2.2.2.2.2.2.2.2.2.2.2.2.1 rfl
    omega
  decide

/-- Two memories that differ, and agree on what the commands read. -/
theorem test_meets_EvaluationReadsOnlyItsBytes :
    let m := xm1
    let m' := xm1 ++ [(0x400, 9)]
    m ≠ m' ∧
    (∀ k : Nat, k < 6 → xread m ((0x0100 : Word).toNat + k) = xread m' ((0x0100 : Word).toNat + k)) ∧
    (∀ k : Nat, k < 2 → xread m ((0x0200 : Word).toNat + k) = xread m' ((0x0200 : Word).toNat + k)) ∧
    (∀ k : Int, 0 ≤ k → k < (readFont m 0x0100).count * (readFont m 0x0100).gw →
      xread m ((readFont m 0x0100).charmap + k) = xread m' ((readFont m 0x0100).charmap + k)) ∧
    xread m ((0x0300 : Word).toNat + 7 * (16 / 8 : Nat) + 15 / 8) =
      xread m' ((0x0300 : Word).toNat + 7 * (16 / 8 : Nat) + 15 / 8) := by
  refine ⟨by decide, by decide, by decide, ?_, by decide⟩
  intro k h0 h1
  rw [show (readFont xm1 0x0100).count * (readFont xm1 0x0100).gw = 6 by decide] at h1
  interval_cases k <;> decide

theorem test_meets_ClearOnlyLaws : let q : Pixel := { wb := 0xFF, x := 3, y := 1, o := 0 }
    (Instr.point 3 1).isClearOnly = true ∧ processCmd p16x8 [] (.point 3 1) q = .byte 0xEF ∧
    memberCmd p16x8 [] (.point 3 1) { q with x := 11 } = some false ∧ (4 : Int) ≠ 7 - 2 % 8 ∧
    (Instr.line 0 1 9 1).isClearOnly = true ∧ processCmd p16x8 [] (.line 0 1 9 1) q = .byte 0xEF := by decide

theorem test_meets_DrawingFrame :
    (Instr.point 3 1).isDrawing = true ∧ exec (.point 3 1) (sweepAt 0 3 1 0xFF) = .next (sweepAt 0 3 1 0xEF) := ⟨rfl, rfl⟩

/-- A footprint of exactly the slot size, in the last free slot. -/
theorem test_meets_PushAppends : let s : State := { stagedText with size := 1 }
    decodeImage s.stageTag s.stage.toList = .ok (.text 2 3 0x0200 0x0100 2 1) ∧
      footprint s.stageTag ≤ s.params.slotSize ∧ s.size.toNat < s.params.capacity := by decide

/-- RSVD in a full buffer too; one byte too large; full. -/
theorem test_meets_PushRejects :
    decodeImage 0 block.stage.toList = .error .reservedTag ∧
    (let s : State := { stagedText with params := { width := 16, height := 8, capacity := 2, slotSize := 10 } };
      decodeImage s.stageTag s.stage.toList = .ok (.text 2 3 0x0200 0x0100 2 1) ∧
        s.params.slotSize < footprint s.stageTag) ∧
    (let s : State := { stagedText with size := 2 };
      decodeImage s.stageTag s.stage.toList = .ok (.text 2 3 0x0200 0x0100 2 1) ∧
        footprint s.stageTag ≤ s.params.slotSize ∧ s.size.toNat = s.params.capacity) := by decide

theorem test_meets_PushedCommandIsStored :
    (Instr.point 3 1).WellFormed ∧ (Instr.point 3 1).isDrawing = true ∧ staged.stageTag = leadByte (.point 3 1) ∧
    (encodePayload (.point 3 1)).isPrefixOf staged.stage.toList = true ∧
    field (·.rej) (exec .push staged) = some false := by decide

/-- Slot 0 is valid before and after the PUSH of slot 1, and of an evaluation; before and after a POP of slot 1. -/
theorem test_meets_PushedCommandIsStored_step :
    field (fun t => decide (0 < t.size.toNat)) (step { staged with size := 1, env := [.write 0x00 0x01] }) = some true ∧
    field (fun t => decide (0 < t.size.toNat)) (step sweeping) = some true ∧ 0 < sweeping.size.toNat ∧
    field (·.size) (step { onePoint with size := 2, env := [.write 0x00 0x02] }) = some 1 := by decide

theorem test_meets_PopRemovesTheLast : 0 < onePoint.size.toNat ∧ block.size.toNat = 0 := by decide

/-- The last valid index, a `RAW` at the first column off the device and at the last pixel on it, and the first index that is not
valid. -/
theorem test_meets_ProcessEvaluatesOneSlot :
    (onePoint.pIdx.toNat < onePoint.size.toNat ∧ decodeSlot onePoint onePoint.pIdx.toNat = .ok (.point 3 1) ∧
      processCmd onePoint.params onePoint.xmem (.point 3 1)
        { wb := onePoint.pWb, x := onePoint.pX.toInt, y := onePoint.pY.toInt, o := onePoint.orient } = .byte 0) ∧
    (oneRaw.pIdx.toNat < oneRaw.size.toNat ∧ decodeSlot oneRaw oneRaw.pIdx.toNat = .ok (.raw 0x0300) ∧
      (oneRaw.params.width : Int) ≤ oneRaw.pX.toInt) ∧
    ((Instr.point 3 1).isClearOnly = true ∧ CommandInFont onePoint.xmem (.point 3 1)) ∧
    (let s : State := { oneRaw with pX := 15, pY := 7 };
      decodeSlot s s.pIdx.toNat = .ok (.raw 0x0300) ∧ CommandInFont s.xmem (.raw 0x0300) ∧
      0 ≤ s.pX.toInt ∧ s.pX.toInt < s.params.width ∧ 0 ≤ s.pY.toInt ∧ s.pY.toInt < s.params.height) ∧
    block.size.toNat ≤ block.pIdx.toNat :=
  ⟨by decide, by decide, ⟨rfl, trivial⟩, ⟨rfl, trivial, by decide⟩, by decide⟩

theorem test_meets_ProcessIsTheSweepsFunction :
    let s : State := { sweepAt 0 3 1 0xFF with slots := pointSlot, pWb := 0xFF, pX := 3, pY := 1 }
    decodeSlot s s.ci = .ok (.point 3 1) ∧ s.pIdx.toNat = s.ci ∧ s.ci < s.size.toNat ∧ s.pWb = s.wb ∧
      s.pX.toInt = 8 * s.xg + s.bi ∧ s.pY.toInt = s.y ∧ s.orient = s.orientAct ∧
      field (·.wb) (exec (.point 3 1) s) = some 0xEF := by decide

theorem test_meets_StepRunsTheDecodedInstruction :
    (block.busy = false ∧ decodeCode ((0x0004 : Word).setWidth 8) = .ok .render) ∧
    (sweeping.busy = true ∧ sweeping.env = [] ∧ sweeping.ci < sweeping.size.toNat ∧
      decodeSlot sweeping sweeping.ci = .ok (.point 3 1)) ∧
    ({ sweeping with env := [.engine] } : State).env = .engine :: [] := by decide

theorem test_meets_CommandCodes :
    (0x0101 : Word).toNat % 256 = 1 ∧ (0x0002 : Word).toNat % 256 = 2 ∧ (0x0003 : Word).toNat % 256 = 3 ∧
    (0x0004 : Word).toNat % 256 = 4 ∧ (0x0100 : Word).toNat % 256 = 0 ∧ 5 ≤ (0x0005 : Word).toNat % 256 ∧
    block.busy = false ∧ sweeping.busy = true := by decide

theorem test_meets_BusyIgnoresHostWrites :
    let s : State := { sweeping with env := [.write 0x02 1] }
    let t : State := { sweeping with env := [.read 0x01] }
    s.busy = true ∧ s.env = [.write 0x02 1] ∧ t.busy = true ∧ t.env = [.read 0x01] := by decide

theorem test_meets_HostReads :
    let s : State := { block with env := [.read 0x1A] }
    s.env = [.read 0x1A] ∧ 0x1B ≤ 0x1B ∧ 0x1A = 0x10 + (10 : Fin 11).val := by decide

theorem test_meets_HostWrites :
    let s : State := { block with env := [.write 0x1A 0xFF07] }
    s.env = [.write 0x1A 0xFF07] ∧ s.busy = false ∧
    0x1A = 0x10 + (10 : Fin 11).val ∧ 0x10 = 0x10 + (0 : Fin 11).val := by decide

theorem test_meets_HostXmemReadBack :
    let s : State := { block with env := [.hostXmem 0xFFFF 7] }
    let t : State := { sweeping with env := [.hostXmem 0 1] }
    s.busy = false ∧ s.env = [.hostXmem 0xFFFF 7] ∧ t.busy = true ∧ t.env = [.hostXmem 0 1] := by decide

theorem test_meets_StallHoldsTheEmission :
    (emitting.busy = true ∧ emitting.size.toNat ≤ emitting.ci) ∧ block.busy = false ∧ sweeping.ci < sweeping.size.toNat ∧
    ({ emitting with env := [.sinkStall] } : State).env = [.sinkStall] := by decide

theorem test_meets_ResetEventAbandonsThePass :
    ({ sweeping with env := [.reset] } : State).env = [.reset] := by decide

/-- The last byte column of a row, a byte column before it, and the last byte of the pass. -/
theorem test_meets_EmissionAdvancesThePass :
    emitting.busy = true ∧ emitting.env = [] ∧ emitting.size.toNat ≤ emitting.ci ∧
    emitting.params.width / 8 ≤ emitting.xg + 1 ∧ emitting.params.height ≤ emitting.y + 1 ∧
    ({ emitting with xg := 0 } : State).xg + 1 < emitting.params.width / 8 ∧
    ({ emitting with y := 6 } : State).y + 1 < emitting.params.height ∧
    (let t : State := { emitting with env := [.engine] }; t.busy = true ∧ t.env = .engine :: [] ∧ t.size.toNat ≤ t.ci) := by
  decide

/-- A state with one valid slot meets the invariant. -/
theorem inv_of_one_slot {s : State} {slot : Slot} {c : Instr} (hs : s.slots = [(0, slot)]) (hz : s.size = 1)
    (hn : 1 ≤ s.params.capacity) (hd : decodeImage slot.tag slot.payload = .ok c)
    (hf : footprint slot.tag ≤ s.params.slotSize) (hl : slot.payload.length = s.params.slotSize)
    (hc : s.cause = .none ↔ s.rej = false) (hb : s.busy = true → SweepInRange s) (hw : slotsWf s = true)
    (hx : Memory.wf s.xmem = true) : Inv s where
  size_le := by rw [hz]; exact hn
  slots_decode := by
    intro i hi
    obtain rfl : i = 0 := by rw [hz] at hi; exact Nat.lt_one_iff.mp hi
    have h : slotAt s 0 = slot := by simp [slotAt, hs, sparseGet]
    rw [decodeSlot, h]
    exact ⟨⟨c, hd⟩, hf⟩
  payloads_fit := by
    intro i
    simp only [slotAt, hs, sparseGet]
    split
    · exact hl
    · simp
  cause_rej := hc
  sweep := hb
  slots_wf := hw
  xmem_wf := hx

theorem test_inv_onePoint : Inv onePoint :=
  inv_of_one_slot rfl rfl (by decide) (c := .point 3 1) rfl (by decide) rfl (by decide) nofun (by decide) (by decide)

theorem test_inv_sweeping : Inv sweeping :=
  inv_of_one_slot rfl rfl (by decide) (c := .point 3 1) rfl (by decide) rfl (by decide)
    (fun _ => by unfold SweepInRange; decide) (by decide) (by decide)

/-- A pass at a pixel of a Text command whose character, byte 0, is not in the font. -/
def badText : State :=
  { sweepText 0 0 0 with slots := [(0, { tag := 5, payload := [0, 0, 0, 0, 2, 2, 0, 1, 1, 0, 1] })] }

theorem test_inv_badText : Inv badText :=
  inv_of_one_slot rfl rfl (by decide) (c := .text 0 0 0x0202 0x0100 1 1) rfl (by decide) rfl (by decide)
    (fun _ => by unfold SweepInRange; decide) (by decide) (by decide)

/-- The clause of a fault. -/
theorem test_meets_ProcessIsTheSweepsFunction_fault :
    let s : State := { badText with pWb := 0xFF }
    decodeSlot s s.ci = .ok (.text 0 0 0x0202 0x0100 1 1) ∧ s.pIdx.toNat = s.ci ∧ s.ci < s.size.toNat ∧ s.pWb = s.wb ∧
      s.pX.toInt = 8 * s.xg + s.bi ∧ s.pY.toInt = s.y ∧ s.orient = s.orientAct ∧
      faultOf (exec (.text 0 0 0x0202 0x0100 1 1) s) = some .glyphOutsideFont := by decide

theorem test_meets_RenderPassIsTheLoopNest : Inv onePoint ∧ onePoint.busy = false ∧ onePoint.env = [] :=
  ⟨test_inv_onePoint, rfl, rfl⟩

theorem test_meets_RenderCannotFail :
    Inv onePoint ∧ ∀ i < onePoint.size.toNat, ∀ c, decodeSlot onePoint i = .ok c → CommandInFont onePoint.xmem c := by
  refine ⟨test_inv_onePoint, fun i hi c hc => ?_⟩
  obtain rfl : i = 0 := Nat.lt_one_iff.mp hi
  cases hc
  trivial

/-- A device of one byte, two pixels drawn in it (00 R6). -/
theorem test_meets_EmissionOrder : let p : Params := { width := 8, height := 1, capacity := 2, slotSize := 11 }
    passBytes p [] 0 [.point 0 0, .point 7 0] = some [0x7E] ∧ 0 < p.height ∧ 0 < p.width / 8 := by decide

theorem test_meets_OutputByteClosedForm :
    (∀ c ∈ [Instr.raw 0x0300, .point 5 1], c.isDrawing = true) ∧ 1 < p16x8.height ∧ 0 < rowBytes p16x8 ∧
      passByte p16x8 xmRaw 0 [.raw 0x0300, .point 5 1] 1 0 = some 0x0B ∧ 0 < 8 ∧ 7 < 8 := by decide

theorem test_meets_OrderOfClearOnlyCommands :
    (∀ c ∈ [Instr.line 0 1 7 1, .point 3 1], c.isClearOnly = true ∧ c.WellFormed ∧ CommandInFont [] c) ∧
      [Instr.line 0 1 7 1, .point 3 1].Perm [.point 3 1, .line 0 1 7 1] := by
  refine ⟨?_, .swap _ _ _⟩
  simp [Instr.isClearOnly, Instr.WellFormed, CommandInFont]

theorem test_meets_RawLastReproducesTheBitmap : let p : Params := { width := 8, height := 1, capacity := 2, slotSize := 11 }
    passBytes p xmRaw 0 [.point 5 0] = some [0xFB] := by decide

theorem test_meets_EmptyBufferRendersBlank : block.size = 0 := by decide

theorem test_meets_LanesAreIndependent :
    (Instr.text 2 3 0x0200 0x0100 2 1).isClearOnly = true ∧ (Instr.text 2 3 0x0200 0x0100 2 1).WellFormed ∧
      CommandInFont xm1 (.text 2 3 0x0200 0x0100 2 1) ∧ [0, 7].Perm [7, 0] :=
  ⟨rfl, by decide, test_string_in_font, .swap _ _ _⟩

/-- Another history: other host registers, working byte, counters and output. -/
theorem test_meets_PassDependsOnlyOnItsInputs :
    let s' := { onePoint with wb := 5, y := 3, pIdx := 9, stageTag := 3, rej := true, cause := .rsvd, out := [1, 2] }
    Inv onePoint ∧ Inv s' ∧ onePoint.busy = false ∧ s'.busy = false ∧ onePoint.env = [] ∧ s'.env = [] ∧
      onePoint.params.width = s'.params.width ∧ onePoint.params.height = s'.params.height ∧ onePoint.orient = s'.orient ∧
      onePoint.size = s'.size ∧ (∀ i < onePoint.size.toNat, decodeSlot onePoint i = decodeSlot s' i) ∧
      onePoint.xmem = s'.xmem :=
  ⟨test_inv_onePoint,
    inv_of_one_slot rfl rfl (by decide) (c := .point 3 1) rfl (by decide) rfl (by decide) nofun (by decide) (by decide),
    rfl, rfl, rfl, rfl, rfl, rfl, rfl, rfl, fun _ _ => rfl, rfl⟩

theorem test_meets_StepKeepsTheInvariant :
    Inv sweeping ∧ field (fun t => (t.ci, t.bi)) (step sweeping) = some (1, 0) := ⟨test_inv_sweeping, by decide⟩

theorem test_meets_DispatchCannotFail : Inv sweeping := test_inv_sweeping

theorem test_meets_OnlyHostsContractsFault :
    (Inv badText ∧ step badText = .fault .glyphOutsideFont) ∧
      Inv { sweeping with env := [.hostXmem 0 1] } ∧
      step { sweeping with env := [.hostXmem 0 1] } = .fault .xmemChangedDuringPass :=
  ⟨⟨test_inv_badText, rfl⟩,
    inv_of_one_slot rfl rfl (by decide) (c := .point 3 1) rfl (by decide) rfl (by decide)
      (fun _ => by unfold SweepInRange; decide) (by decide) (by decide),
    rfl⟩

theorem test_meets_OnlyPushWritesSlotsAndFlags : let s : State := { block with env := [.write 0x00 0x01] }
    s.rej = false ∧ field (·.rej) (step s) = some true := by decide

theorem test_meets_OnlyPushAndPopChangeSize :
    Inv { onePoint with env := [.write 0x00 0x02] } ∧
      field (·.size) (step { onePoint with env := [.write 0x00 0x02] }) = some 0 :=
  ⟨inv_of_one_slot rfl rfl (by decide) (c := .point 3 1) rfl (by decide) rfl (by decide) nofun (by decide) (by decide),
    by decide⟩

theorem test_meets_OnlyEmissionsReachOut : field (·.out) (step emitting) = some [0xFF] := by decide

theorem test_meets_BlockNeverWritesXmem :
    field (·.xmem) (exec .pop onePoint) = some [] ∧
      field (·.xmem) (step { block with env := [.hostXmem 0xFFFF 7] }) = some [(0xFFFF, 7)] := by decide

theorem test_meets_WorkingByteAndResultWriters :
    block.wb = 0 ∧ field (·.wb) (step { block with env := [.write 0x00 0x04] }) = some 0xFF ∧ onePoint.pOut = 0 ∧
      field (·.pOut) (step { onePoint with env := [.write 0x00 0x03], pWb := 0xFF }) = some 0xFF := by decide

end Sys2Proof.Machine.Tests
end

section
/-! PROOFS. The scope rules of spec/00_scope.md: the pixel a working byte's column draws (R6), and the frame of a drawing command
(R9). -/
namespace Sys2Proof.Machine

/-- Settles O9: the bits of `mask` and `clear`. -/
theorem clearDrawsOnePixel : Obligations.ClearDrawsOnePixel := by
  intro wb x k _
  constructor
  · rw [mask_getLsbD, decide_eq_true_iff]
  · exact clear_getLsbD wb x k

/-- `TEXT` never leaves its byte free: it answers a byte, a bad glyph or, at SCALE 0, no command (42 R138, R139). -/
theorem processText_ne_unspecified (p : Params) (m : List Host.Cell) (x y str fnt len : Word) (scale : Byte) (q : Pixel) :
    processText p m x y str fnt len scale q ≠ .unspecified := by
  unfold processText
  split
  · nofun
  · split <;> nofun

/-- Only `RAW` leaves its byte free (93 U2). -/
theorem processCmd_ne_unspecified {c : Instr} (h : c.isClearOnly = true) (p : Params) (m : List Host.Cell) (q : Pixel) :
    processCmd p m c q ≠ .unspecified := by
  cases c with
  | point | line | rectF | rectO | circleF | circleO => exact Eval.noConfusion
  | text x y str fnt len scale => exact processText_ne_unspecified p m x y str fnt len scale q
  | raw | push | pop | process | render => cases h

/-- Settles O25: both outcomes of `intoWb` write `wb` and `draws` alone, and the one that draws is never a clear-only command's. -/
theorem drawingFrame : Obligations.DrawingFrame := by
  intro i s t hd hx
  rw [exec_drawing hd] at hx
  rcases intoWb_next hx with ⟨b, -, rfl⟩ | ⟨hfree, rfl⟩
  · exact ⟨rfl, fun _ => rfl⟩
  · exact ⟨rfl, fun hc => absurd hfree (processCmd_ne_unspecified hc _ _ _)⟩

end Sys2Proof.Machine
end

section
/-! PROOFS. What each host command can do to the state, and that every step keeps the invariant of the machine
(spec/10_state.md R27, R28). -/
namespace Sys2Proof.Machine

/-! ### What a host command can do -/

/-- PUSH rejects for a named cause, or appends an image that decodes, fits its slot and finds a free one (43 R151). -/
theorem execPush_next {s t : State} (h : execPush s = .next t) :
    (∃ c, c ≠ .none ∧ t = setRejected c s) ∨
    ((∃ i, decodeImage s.stageTag s.stage.toList = .ok i) ∧ footprint s.stageTag ≤ s.params.slotSize ∧
      s.size.toNat ≠ s.params.capacity ∧
      t = setAccepted { writeSlot s.size.toNat s.stageTag s.stage.toList s with size := s.size + 1 }) := by
  rcases execPush_cases s with ⟨-, hx⟩ | ⟨i, hi, ⟨-, hx⟩ | ⟨-, -, hx⟩ | ⟨hfit, hfree, hx⟩⟩ <;>
    obtain rfl := Host.Outcome.next.inj (h.symm.trans hx)
  · exact .inl ⟨.rsvd, by decide, rfl⟩
  · exact .inl ⟨.tooBig, by decide, rfl⟩
  · exact .inl ⟨.full, by decide, rfl⟩
  · exact .inr ⟨⟨i, hi⟩, hfit, hfree, rfl⟩

/-- POP takes one off SIZE, or leaves an empty buffer alone (43 R153). -/
theorem execPop_next {s t : State} (h : execPop s = .next t) :
    (0 < s.size.toNat ∧ t = { s with size := s.size - 1 }) ∨ t = s := by
  unfold execPop at h
  split at h
  · next hpos => exact .inl ⟨hpos, (Host.Outcome.next.inj h).symm⟩
  · exact .inr (Host.Outcome.next.inj h).symm

/-- RENDER starts a pass and does nothing else (44 R170). -/
theorem execRender_next {s t : State} (h : execRender s = .next t) : t = startPass s :=
  (Host.Outcome.next.inj h).symm

/-- What an accepted code of `CMD` can do (30 R75): one case for each of the four host commands. -/
theorem hostCommand_next {c : Byte} {i : Instr} {s t : State} (hc : decodeCode c = .ok i) (h : exec i s = .next t) :
    (i = .push ∧ execPush s = .next t) ∨
    (i = .pop ∧ ((0 < s.size.toNat ∧ t = { s with size := s.size - 1 }) ∨ t = s)) ∨
    (i = .process ∧ ∃ b d, t = { s with pOut := b, draws := d }) ∨
    (i = .render ∧ t = startPass s) := by
  rcases decodeCode_cases hc with ⟨-, rfl⟩ | ⟨-, rfl⟩ | ⟨-, rfl⟩ | ⟨-, rfl⟩
  · exact .inl ⟨rfl, h⟩
  · exact .inr (.inl ⟨rfl, execPop_next h⟩)
  · exact .inr (.inr (.inl ⟨rfl, execProcess_next h⟩))
  · exact .inr (.inr (.inr ⟨rfl, execRender_next h⟩))

/-- SIZE after an append: a block that is not full has room below 2^16 (00 R3, 10 R12). -/
theorem size_add_one_toNat {s : State} (hle : s.size.toNat ≤ s.params.capacity) (hne : s.size.toNat ≠ s.params.capacity) :
    (s.size + 1).toNat = s.size.toNat + 1 := by
  obtain ⟨-, -, -, -, -, hn, -⟩ := s.params.legal
  bv_omega

/-- SIZE after a removal. -/
theorem size_sub_one_toNat {s : State} (hpos : 0 < s.size.toNat) : (s.size - 1).toNat + 1 = s.size.toNat := by
  bv_omega

/-! ### The stored image -/

/-- The decoder reads the first `footprint(tag)` payload bytes alone, whatever follows them (30 R63). -/
theorem decodeImage_take_append {tag : Byte} {pl : List Byte} {i : Instr} (h : decodeImage tag pl = .ok i)
    (tail : List Byte) : decodeImage tag (pl.take (footprint tag) ++ tail) = .ok i := by
  obtain ⟨rfl, hd⟩ | ⟨rfl, hd⟩ | ⟨rfl, hd⟩ | ⟨rfl, hd⟩ | ⟨rfl, hd⟩ | ⟨rfl, hd⟩ := decodeImage_cases h
  · unfold decodePoint at hd; split at hd <;> [exact hd; cases hd]
  · unfold decodeLine at hd; split at hd <;> [exact hd; cases hd]
  · unfold decodeRect at hd; split at hd <;> [exact hd; cases hd]
  · unfold decodeCircle at hd; split at hd <;> [exact hd; cases hd]
  · unfold decodeText at hd; split at hd <;> [exact hd; cases hd]
  · unfold decodeRaw at hd; split at hd <;> [exact hd; cases hd]

/-- A slot keeps its `S` payload bytes when an image that fits is written into it (10 R11). -/
theorem writeSlot_payloadsFit {s : State} (hfit : footprint s.stageTag ≤ s.params.slotSize) (h : PayloadsFit s) (n : Nat) :
    PayloadsFit (writeSlot n s.stageTag s.stage.toList s) := by
  intro i
  by_cases hi : i = n
  · subst hi
    have hmax : footprint s.stageTag ≤ 11 := footprint_le s.stageTag
    rw [slotAt_writeSlot_same]
    simp [h i]
    omega
  · rw [slotAt_writeSlot_other hi]
    exact h i

/-! ### The invariant, operation by operation -/

/-- While no pass runs, the sweep's ranges are no concern. -/
theorem Inv.congr_idle {s t : State} (h : Inv s) (hb : t.busy = false) (h1 : t.params = s.params) (h2 : t.slots = s.slots)
    (h3 : t.size = s.size) (h4 : t.rej = s.rej) (h5 : t.cause = s.cause) (h6 : Memory.wf t.xmem = true) : Inv t :=
  h.congr h1 h2 h3 h4 h5 h6 fun hbusy => absurd (hb.symm.trans hbusy) Bool.false_ne_true

/-- The environment's moves and the record of reads are not in the invariant. -/
theorem Inv.with_env_reads {s : State} (h : Inv s) (e : List EnvMove) (r : List (Nat × Word)) :
    Inv { s with env := e, reads := r } :=
  h.congr rfl rfl rfl rfl rfl h.xmem_wf h.sweep

/-- An idle block with an empty slot file as reset leaves it has the invariant (10 R28). -/
theorem Inv.of_empty {s : State} (hz : s.size = 0) (hs : s.slots = []) (hc : s.cause = .none) (hr : s.rej = false)
    (hb : s.busy = false) (hx : Memory.wf s.xmem = true) : Inv s where
  size_le := by simp [hz]
  slots_decode := by intro i hi; simp [hz] at hi
  payloads_fit := by intro i; simp [slotAt, hs, sparseGet]
  cause_rej := by simp [hc, hr]
  sweep := by simp [hb]
  slots_wf := by simp [slotsWf, hs]
  xmem_wf := hx

theorem setRejected_inv {s : State} (h : Inv s) (hb : s.busy = false) {c : Cause} (hc : c ≠ .none) :
    Inv (setRejected c s) where
  size_le := h.size_le
  slots_decode := h.slots_decode
  payloads_fit := h.payloads_fit
  cause_rej := by simp [hc]
  sweep := by simp [hb]
  slots_wf := h.slots_wf
  xmem_wf := h.xmem_wf

/-- An accepted PUSH: the new slot decodes because its image did, and every slot before it is as it was. -/
theorem appendSlot_inv {s : State} (h : Inv s) (hb : s.busy = false)
    (hd : ∃ i, decodeImage s.stageTag s.stage.toList = .ok i) (hfit : footprint s.stageTag ≤ s.params.slotSize)
    (hfree : s.size.toNat ≠ s.params.capacity) :
    Inv (setAccepted { writeSlot s.size.toNat s.stageTag s.stage.toList s with size := s.size + 1 }) := by
  have hsize := size_add_one_toNat h.size_le hfree
  have hle := h.size_le
  exact {
    size_le := by
      show (s.size + 1).toNat ≤ s.params.capacity
      omega
    slots_decode := by
      intro i (hi : i < (s.size + 1).toNat)
      show (∃ cmd, decodeSlot (writeSlot s.size.toNat s.stageTag s.stage.toList s) i = .ok cmd) ∧
        footprint (slotAt (writeSlot s.size.toNat s.stageTag s.stage.toList s) i).tag ≤ s.params.slotSize
      by_cases hlast : i = s.size.toNat
      · subst hlast
        obtain ⟨cmd, hcmd⟩ := hd
        rw [decodeSlot, slotAt_writeSlot_same]
        exact ⟨⟨cmd, decodeImage_take_append hcmd _⟩, hfit⟩
      · rw [decodeSlot, slotAt_writeSlot_other hlast]
        exact h.slots_decode i (by omega)
    payloads_fit := writeSlot_payloadsFit hfit h.payloads_fit s.size.toNat
    cause_rej := by simp
    sweep := by simp [hb]
    slots_wf := writeSlot_wf s.stageTag s.stage.toList s (by omega) h.slots_wf
    xmem_wf := h.xmem_wf }

/-- POP: the valid slots are fewer. -/
theorem removeSlot_inv {s : State} (h : Inv s) (hb : s.busy = false) (hpos : 0 < s.size.toNat) :
    Inv { s with size := s.size - 1 } := by
  have hsize := size_sub_one_toNat hpos
  have hle := h.size_le
  exact {
    size_le := by
      show (s.size - 1).toNat ≤ s.params.capacity
      omega
    slots_decode := by
      intro i (hi : i < (s.size - 1).toNat)
      exact h.slots_decode i (by omega)
    payloads_fit := h.payloads_fit
    cause_rej := h.cause_rej
    sweep := by simp [hb]
    slots_wf := h.slots_wf
    xmem_wf := h.xmem_wf }

/-- RENDER: the first position of a pass is in range, for the device has a byte column and a row (00 R3). -/
theorem startPass_inv {s : State} (h : Inv s) : Inv (startPass s) := by
  refine h.congr rfl rfl rfl rfl rfl h.xmem_wf fun _ => ?_
  obtain ⟨-, hw, -, hh, -⟩ := s.params.legal
  refine ⟨hh, ?_, Nat.zero_le _, Nat.succ_pos 7, fun _ => rfl, rfl⟩
  simp
  omega

/-- An accepted code of `CMD` keeps the invariant, whichever command it is. -/
theorem hostCommand_inv {s t : State} {c : Byte} {i : Instr} (h : Inv s) (hb : s.busy = false)
    (hc : decodeCode c = .ok i) (hx : exec i s = .next t) : Inv t := by
  rcases hostCommand_next hc hx with ⟨-, hpush⟩ | ⟨-, ⟨hpos, rfl⟩ | rfl⟩ | ⟨-, b, d, rfl⟩ | ⟨-, rfl⟩
  · rcases execPush_next hpush with ⟨c, hne, rfl⟩ | ⟨hd, hfit, hfree, rfl⟩
    · exact setRejected_inv h hb hne
    · exact appendSlot_inv h hb hd hfit hfree
  · exact removeSlot_inv h hb hpos
  · exact h
  · exact h.congr rfl rfl rfl rfl rfl h.xmem_wf h.sweep
  · exact startPass_inv h

/-- An emission goes on to a position in range, or ends the pass. -/
theorem emitByte_inv {s : State} (h : Inv s) (hb : s.busy = true) : Inv (emitByte s) := by
  obtain ⟨hy, hxg, -, -, -, ho⟩ := h.sweep hb
  refine h.congr (by simp) (by simp) (by simp) (by simp) (by simp) (by simpa using h.xmem_wf) fun hbusy => ?_
  rcases emitByte_cases s with ⟨hcol, he⟩ | ⟨-, hrow, he⟩ | ⟨-, -, he⟩ <;> rw [he] at hbusy ⊢
  · exact ⟨hy, hcol, Nat.zero_le _, Nat.succ_pos 7, fun _ => rfl, ho⟩
  · exact ⟨hrow, Nat.zero_lt_of_lt hxg, Nat.zero_le _, Nat.succ_pos 7, fun _ => rfl, ho⟩
  · exact absurd hbusy Bool.false_ne_true

/-- The advance after an evaluation stays in range: `CI` reaches SIZE only with `BI` back at 0 (10 R14). -/
theorem evaluation_inv {s : State} (h : Inv s) (hb : s.busy = true) (hci : s.ci < s.size.toNat) (w : Byte) (d : Nat) :
    Inv (advanceSweep { s with wb := w, draws := d }) := by
  obtain ⟨hy, hxg, -, hbi, -, ho⟩ := h.sweep hb
  refine h.congr (by simp) (by simp) (by simp) (by simp) (by simp) (by simpa using h.xmem_wf) fun _ => ?_
  unfold advanceSweep
  split
  · next hlt => exact ⟨hy, hxg, hci.le, Nat.succ_lt_succ hlt, fun hend => absurd hend hci.ne, ho⟩
  · exact ⟨hy, hxg, hci, Nat.succ_pos 7, fun _ => rfl, ho⟩

/-- Settles O52: each case of `step_cases` is an operation that keeps the invariant. -/
theorem stepKeepsTheInvariant : Obligations.StepKeepsTheInvariant := by
  intro s t h hst
  have henv (e : List EnvMove) : Inv { s with env := e } := h.with_env_reads e s.reads
  rcases step_cases hst with ⟨-, -, rfl⟩ | ⟨-, m, rest, -, rfl⟩ | ⟨u, hu, hb, hdone, rfl⟩ |
    ⟨u, w, d, hu, hb, hci, rfl⟩ | ⟨hb, v, rest, i, -, hc, hx⟩ | ⟨hb, e, o, st, stt, a, b, c, d, rfl⟩ | ⟨e, r, rfl⟩ |
    ⟨hb, a, b, rest, -, rfl⟩ | ⟨rest, -, rfl⟩
  · exact h
  · exact henv rest
  · obtain rfl | ⟨e, rfl⟩ := hu
    · exact emitByte_inv h hb
    · exact emitByte_inv (henv e) hb
  · obtain rfl | ⟨e, rfl⟩ := hu
    · exact evaluation_inv h hb hci w d
    · exact evaluation_inv (henv e) hb hci w d
  · exact hostCommand_inv (henv rest) hb hc hx
  · exact h.congr_idle hb rfl rfl rfl rfl rfl h.xmem_wf
  · exact h.with_env_reads e r
  · exact h.congr_idle hb rfl rfl rfl rfl rfl (writeXmem_wf a b _ h.xmem_wf)
  · exact Inv.of_empty rfl rfl rfl rfl rfl h.xmem_wf

/-- Settles O53: an idle block with an empty slot file. -/
theorem resetHasTheInvariant : Obligations.ResetHasTheInvariant :=
  Inv.of_empty rfl rfl rfl rfl rfl rfl

end Sys2Proof.Machine
end

section
/-! PROOFS. Who writes what: the slot file, SIZE, the flags, `WB`, `P_OUT` and OUT over every step (spec/10_state.md R11 to R13,
R17, R19, R24). -/
namespace Sys2Proof.Machine

/-- Over a step that is neither a reset nor an accepted code of `CMD`, the slot file, SIZE, the flags and `P_OUT` stay as they
are. -/
theorem step_command_reset_or_keeps {s t : State} (h : step s = .next t) :
    s.env.head? = some .reset ∨
    (s.busy = false ∧ ∃ v rest i, s.env = .write 0x00 v :: rest ∧ decodeCode (v.setWidth 8) = .ok i ∧
      exec i { s with env := rest } = .next t) ∨
    (t.slots = s.slots ∧ t.size = s.size ∧ t.rej = s.rej ∧ t.cause = s.cause ∧ t.pOut = s.pOut) := by
  rcases step_cases h with ⟨-, -, rfl⟩ | ⟨-, m, rest, -, rfl⟩ | ⟨u, hu, -, -, rfl⟩ | ⟨u, w, d, hu, -, -, rfl⟩ | hcmd |
    ⟨-, e, o, st, stt, a, b, c, d, rfl⟩ | ⟨e, r, rfl⟩ | ⟨-, a, b, rest, -, rfl⟩ | ⟨rest, he, -⟩
  · exact .inr (.inr ⟨rfl, rfl, rfl, rfl, rfl⟩)
  · exact .inr (.inr ⟨rfl, rfl, rfl, rfl, rfl⟩)
  · obtain rfl | ⟨e, rfl⟩ := hu <;> simp
  · obtain rfl | ⟨e, rfl⟩ := hu <;> simp
  · exact .inr (.inl hcmd)
  · exact .inr (.inr ⟨rfl, rfl, rfl, rfl, rfl⟩)
  · exact .inr (.inr ⟨rfl, rfl, rfl, rfl, rfl⟩)
  · exact .inr (.inr ⟨rfl, rfl, rfl, rfl, rfl⟩)
  · exact .inl (by simp [he])

/-- No host command emits: OUT is the sweep's (20 R47). -/
theorem hostCommand_out {c : Byte} {i : Instr} {s t : State} (hc : decodeCode c = .ok i) (h : exec i s = .next t) :
    t.out = s.out := by
  rcases hostCommand_next hc h with ⟨-, hpush⟩ | ⟨-, ⟨-, rfl⟩ | rfl⟩ | ⟨-, b, d, rfl⟩ | ⟨-, rfl⟩
  · rcases execPush_next hpush with ⟨c, -, rfl⟩ | ⟨-, -, -, rfl⟩ <;> rfl
  all_goals rfl

/-- Of the host commands only RENDER writes the working byte (10 R13). -/
theorem hostCommand_wb {c : Byte} {i : Instr} {s t : State} (hc : decodeCode c = .ok i) (h : exec i s = .next t) :
    t.wb = s.wb ∨ i = .render := by
  rcases hostCommand_next hc h with ⟨-, hpush⟩ | ⟨-, ⟨-, rfl⟩ | rfl⟩ | ⟨-, b, d, rfl⟩ | ⟨hi, -⟩
  · rcases execPush_next hpush with ⟨c, -, rfl⟩ | ⟨-, -, -, rfl⟩ <;> exact .inl rfl
  · exact .inl rfl
  · exact .inl rfl
  · exact .inl rfl
  · exact .inr hi

/-- Of the host commands only PROCESS writes `P_OUT` (10 R19). -/
theorem hostCommand_pOut {c : Byte} {i : Instr} {s t : State} (hc : decodeCode c = .ok i) (h : exec i s = .next t) :
    t.pOut = s.pOut ∨ i = .process := by
  rcases hostCommand_next hc h with ⟨-, hpush⟩ | ⟨-, ⟨-, rfl⟩ | rfl⟩ | ⟨hi, -⟩ | ⟨-, rfl⟩
  · rcases execPush_next hpush with ⟨c, -, rfl⟩ | ⟨-, -, -, rfl⟩ <;> exact .inl rfl
  · exact .inl rfl
  · exact .inl rfl
  · exact .inr hi
  · exact .inl rfl

/-- Of the host commands only PUSH writes the slot file and the flags (10 R11, R17). -/
theorem hostCommand_slots_flags {c : Byte} {i : Instr} {s t : State} (hc : decodeCode c = .ok i)
    (h : exec i s = .next t) : (t.slots = s.slots ∧ t.rej = s.rej ∧ t.cause = s.cause) ∨ i = .push := by
  rcases hostCommand_next hc h with ⟨hi, -⟩ | ⟨-, ⟨-, rfl⟩ | rfl⟩ | ⟨-, b, d, rfl⟩ | ⟨-, rfl⟩
  · exact .inr hi
  all_goals exact .inl ⟨rfl, rfl, rfl⟩

/-- What the host commands do to SIZE where it is at most `N`: PUSH may add one, POP may take one off (10 R12). -/
theorem hostCommand_size {c : Byte} {i : Instr} {s t : State} (hle : s.size.toNat ≤ s.params.capacity)
    (hc : decodeCode c = .ok i) (h : exec i s = .next t) :
    t.size = s.size ∨ (i = .push ∧ t.size.toNat = s.size.toNat + 1) ∨ (i = .pop ∧ t.size.toNat + 1 = s.size.toNat) := by
  rcases hostCommand_next hc h with ⟨hi, hpush⟩ | ⟨hi, ⟨hpos, rfl⟩ | rfl⟩ | ⟨-, b, d, rfl⟩ | ⟨-, rfl⟩
  · rcases execPush_next hpush with ⟨c, -, rfl⟩ | ⟨-, -, hfree, rfl⟩
    · exact .inl rfl
    · exact .inr (.inl ⟨hi, size_add_one_toNat hle hfree⟩)
  · exact .inr (.inr ⟨hi, size_sub_one_toNat hpos⟩)
  all_goals exact .inl rfl

/-- Settles O56: a step that is neither a reset nor a host command keeps them, and so does every host command but PUSH. -/
theorem onlyPushWritesSlotsAndFlags : Obligations.OnlyPushWritesSlotsAndFlags := by
  intro s t hst hchanged
  rcases step_command_reset_or_keeps hst with hreset | ⟨hb, v, rest, i, he, hc, hx⟩ | ⟨hslots, -, hrej, hcause, -⟩
  · exact .inl hreset
  · rcases hostCommand_slots_flags hc hx with ⟨hslots, hrej, hcause⟩ | rfl
    · simp [hslots, hrej, hcause] at hchanged
    · exact .inr ⟨hb, v, rest, he, hc⟩
  · simp [hslots, hrej, hcause] at hchanged

/-- Settles O57: PUSH appends only below `N` and POP removes only from a buffer that is not empty, so neither wraps. -/
theorem onlyPushAndPopChangeSize : Obligations.OnlyPushAndPopChangeSize := by
  intro s t hinv hst hchanged
  rcases step_command_reset_or_keeps hst with hreset | ⟨hb, v, rest, i, he, hc, hx⟩ | ⟨-, hsize, -⟩
  · exact .inl hreset
  · rcases hostCommand_size (s := { s with env := rest }) hinv.size_le hc hx with hsize | ⟨rfl, hup⟩ | ⟨rfl, hdown⟩
    · exact absurd hsize hchanged
    · exact .inr ⟨v, rest, hb, he, .inl ⟨hc, hup⟩⟩
    · exact .inr ⟨v, rest, hb, he, .inr ⟨hc, hdown⟩⟩
  · exact absurd hsize hchanged

/-- Settles O58: of the cases of `step_cases` only the emission appends, and only reset empties. -/
theorem onlyEmissionsReachOut : Obligations.OnlyEmissionsReachOut := by
  intro s t hst
  rcases step_cases hst with ⟨-, -, rfl⟩ | ⟨-, m, rest, -, rfl⟩ | ⟨u, hu, hb, hdone, rfl⟩ | ⟨u, w, d, hu, -, -, rfl⟩ |
    ⟨-, v, rest, i, -, hc, hx⟩ | ⟨-, e, o, st, stt, a, b, c, d, rfl⟩ | ⟨e, r, rfl⟩ | ⟨-, a, b, rest, -, rfl⟩ |
    ⟨rest, he, rfl⟩
  · exact .inl rfl
  · exact .inl rfl
  · refine .inr (.inl ⟨hb, hdone, ?_⟩)
    obtain rfl | ⟨e, rfl⟩ := hu <;> exact emitByte_out _
  · left
    obtain rfl | ⟨e, rfl⟩ := hu <;> exact advanceSweep_out _
  · have hout := hostCommand_out hc hx
    exact .inl hout
  · exact .inl rfl
  · exact .inl rfl
  · exact .inl rfl
  · exact .inr (.inr ⟨by simp [he], rfl⟩)

/-- Over a step the working byte changes in a pass, at an accepted code of RENDER, or at reset. -/
theorem step_wb {s t : State} (h : step s = .next t) :
    t.wb = s.wb ∨ s.busy = true ∨ s.env.head? = some .reset ∨
      ∃ v rest, s.env = .write 0x00 v :: rest ∧ decodeCode (v.setWidth 8) = .ok .render := by
  rcases step_cases h with ⟨-, -, rfl⟩ | ⟨-, m, rest, -, rfl⟩ | ⟨u, -, hb, -, -⟩ | ⟨u, w, d, -, hb, -, -⟩ |
    ⟨-, v, rest, i, he, hc, hx⟩ | ⟨-, e, o, st, stt, a, b, c, d, rfl⟩ | ⟨e, r, rfl⟩ | ⟨-, a, b, rest, -, rfl⟩ |
    ⟨rest, he, -⟩
  · exact .inl rfl
  · exact .inl rfl
  · exact .inr (.inl hb)
  · exact .inr (.inl hb)
  · rcases hostCommand_wb hc hx with hwb | rfl
    · exact .inl hwb
    · exact .inr (.inr (.inr ⟨v, rest, he, hc⟩))
  · exact .inl rfl
  · exact .inl rfl
  · exact .inl rfl
  · exact .inr (.inr (.inl (by simp [he])))

/-- Settles O60: of the host commands only RENDER writes the one and only PROCESS the other. -/
theorem workingByteAndResultWriters : Obligations.WorkingByteAndResultWriters := by
  intro s t hst
  refine ⟨fun hchanged => (step_wb hst).resolve_left hchanged, fun hchanged => ?_⟩
  rcases step_command_reset_or_keeps hst with hreset | ⟨hb, v, rest, i, he, hc, hx⟩ | ⟨-, -, -, -, hpOut⟩
  · exact .inl hreset
  · rcases hostCommand_pOut hc hx with hpOut | rfl
    · exact absurd hpOut hchanged
    · exact .inr ⟨hb, v, rest, he, hc⟩
  · exact absurd hpOut hchanged

end Sys2Proof.Machine
end

section
/-! PROOFS. HOST's accesses: the register file (spec/10_state.md R17, R20, R22, R23), XMEM (R25), and the state after reset
(R28). -/
namespace Sys2Proof.Machine

/-! ### One step under a move of HOST -/

/-- What a pending move of the environment makes the step run. -/
theorem fetch_of_env {s : State} {m : EnvMove} {rest : List EnvMove} (he : s.env = m :: rest) :
    fetch s = envMove m { s with env := rest } := by
  rw [fetch, he]

/-- A step that runs no instruction. -/
theorem step_of_quiet {s t : State} (h : fetch s = .quiet t) : step s = .next t := by
  rw [step_eq, h]

/-- A read is recorded with the register's current value, in a pass or not (10 R22). -/
theorem step_read {s : State} {reg : Nat} {rest : List EnvMove} (he : s.env = .read reg :: rest) :
    step s = .next { s with env := rest, reads := s.reads ++ [(reg, readReg s reg)] } :=
  step_of_quiet (fetch_of_env he)

/-- A write while BUSY is 1 is ignored (10 R22). -/
theorem step_write_busy {s : State} {reg : Nat} {v : Word} {rest : List EnvMove} (hb : s.busy = true)
    (he : s.env = .write reg v :: rest) : step s = .next { s with env := rest } := by
  refine step_of_quiet ((fetch_of_env he).trans ?_)
  simp [envMove, hostWrite, hb]

/-- A write of a register other than `CMD` while BUSY is 0 (10 R20). -/
theorem step_write_idle {s : State} {reg : Nat} {v : Word} {rest : List EnvMove} (hb : s.busy = false) (hr : reg ≠ 0)
    (he : s.env = .write reg v :: rest) : step s = .next (writeReg reg v { s with env := rest }) := by
  refine step_of_quiet ((fetch_of_env he).trans ?_)
  simp [envMove, hostWrite, hb, hr]

/-! ### What the registers read as -/

/-- `STATUS` as a number: BUSY in bit 0, REJ in bit 1, CAUSE in bits 3:2 (10 R17). -/
theorem statusByte_toNat (s : State) :
    (statusByte s).toNat = (if s.busy then 1 else 0) + (if s.rej then 2 else 0) +
      (match s.cause with | .none => 0 | .full => 4 | .tooBig => 8 | .rsvd => 12) := by
  unfold statusByte
  cases s.busy <;> cases s.rej <;> cases s.cause <;> rfl

/-- A parameter fits the 16 bits it is read through (00 R3). -/
theorem ofNat_16_toNat {n : Nat} (h : n ≤ 65535) : (BitVec.ofNat 16 n).toNat = n :=
  (BitVec.toNat_ofNat n 16).trans (Nat.mod_eq_of_lt (Nat.lt_succ_of_le h))

/-- A reserved register number reads 0 (10 R20). -/
theorem readReg_reserved (s : State) {reg : Nat} (h : reg = 0x0E ∨ reg = 0x0F ∨ 0x1B ≤ reg) : readReg s reg = 0 := by
  have hstage : ¬ (0x10 ≤ reg ∧ reg ≤ 0x1A) := by omega
  unfold readReg
  split
  iterate 13 omega
  rw [if_neg hstage]

/-- Register `0x10 + k` reads as `STAGE[k]` (10 R20). -/
theorem readReg_stage (s : State) (k : Fin 11) : readReg s (0x10 + k.val) = (s.stage[k.val]).setWidth 16 := by
  have hstage : 0x10 ≤ 0x10 + k.val ∧ 0x10 + k.val ≤ 0x1A := by omega
  unfold readReg
  split
  iterate 13 omega
  rw [if_pos hstage, Nat.add_sub_cancel_left]
  simp [List.getD_eq_getElem?_getD]

/-! ### What a register write does -/

/-- Read-only and reserved register numbers ignore a write (10 R20, R23). -/
theorem writeReg_ignored (v : Word) (s : State) {reg : Nat}
    (h : reg = 0x01 ∨ (0x03 ≤ reg ∧ reg ≤ 0x07) ∨ (0x0D ≤ reg ∧ reg ≤ 0x0F) ∨ 0x1B ≤ reg) : writeReg reg v s = s := by
  have hstage : ¬ (0x10 ≤ reg ∧ reg ≤ 0x1A) := by omega
  unfold writeReg
  split
  iterate 6 omega
  exact if_neg hstage

/-- A write of register `0x10 + k` goes into `STAGE[k]` (10 R20). -/
theorem writeReg_stage (v : Word) (s : State) (k : Fin 11) :
    writeReg (0x10 + k.val) v s = { s with stage := s.stage.setIfInBounds k.val (v.setWidth 8) } := by
  have hstage : 0x10 ≤ 0x10 + k.val ∧ 0x10 + k.val ≤ 0x1A := by omega
  unfold writeReg
  split
  iterate 6 omega
  rw [if_pos hstage, Nat.add_sub_cancel_left]

/-! ### XMEM -/

/-- A read of XMEM after HOST's write: the byte at the written address modulo 2^16, and elsewhere what was there (20 R43). -/
theorem xread_writeXmem (a : Word) (b : Byte) (s : State) (k : Int) :
    xread (writeXmem a b s).xmem k = if k % 65536 = a.toNat then b else xread s.xmem k := by
  unfold xread posmod
  rw [writeXmem_xmem]
  split
  · next h => rw [h, Int.toNat_natCast, sparseGet_set_same]
  · next h => exact sparseGet_set_other xmemDefault (by omega) b s.xmem

/-! ### The obligations -/

/-- Settles O37: the read after the write in the sparse map. -/
theorem hostXmemReadBack : Obligations.HostXmemReadBack := by
  intro s rest a b he
  refine ⟨fun hb => ⟨writeXmem a b { s with env := rest }, step_of_quiet ((fetch_of_env he).trans ?_), rfl,
    xread_writeXmem a b _⟩, fun hb => ?_⟩
  · simp [envMove, hb]
  · rw [step_eq, fetch_of_env he]
    simp [envMove, hb]

/-- Settles O34: the write is dropped at the fetch, and the read is the register's value as it stands. -/
theorem busyIgnoresHostWrites : Obligations.BusyIgnoresHostWrites := by
  intro s rest reg v hb
  refine ⟨step_write_busy hb, fun he => ⟨step_read he, ?_⟩⟩
  rintro rfl
  show ((statusByte s).setWidth 16).toNat % 2 = 1
  rw [BitVec.toNat_setWidth_of_le (by decide), statusByte_toNat, hb]
  cases s.rej <;> cases s.cause <;> rfl

/-- Settles O35: register by register; a narrower register is widened, and a parameter fits its 16 bits. -/
theorem hostReads : Obligations.HostReads := by
  intro s rest reg he
  obtain ⟨-, -, hwidth, -, hheight, hcapacity, hslot, -⟩ := s.params.legal
  have narrow {n : Nat} (h : n ≤ 16) (b : BitVec n) : (b.setWidth 16).toNat = b.toNat := BitVec.toNat_setWidth_of_le h
  refine ⟨readReg s reg, step_read he, ?cmd, ?status, ?orient, ?size, ?capacity, ?slotSize, ?width, ?height, ?stageTag,
    ?pIdx, ?pWb, ?pX, ?pY, ?pOut, readReg_reserved s, ?stage⟩
  case stage =>
    rintro k rfl
    rw [readReg_stage]
    exact narrow (by decide) _
  all_goals rintro rfl
  case cmd | size | pIdx | pX | pY => rfl
  case status => exact (narrow (by decide) _).trans (statusByte_toNat s)
  case orient | stageTag | pWb | pOut => exact narrow (by decide) _
  case capacity => exact ofNat_16_toNat hcapacity
  case slotSize => exact ofNat_16_toNat (by omega)
  case width => exact ofNat_16_toNat (by omega)
  case height => exact ofNat_16_toNat (by omega)

/-- Settles O36: register by register; what is neither listed nor `STAGE` falls through. -/
theorem hostWrites : Obligations.HostWrites := by
  intro s rest reg v hb he
  refine ⟨?orient, ?stageTag, ?pIdx, ?pWb, ?pX, ?pY, ?stage, ?ignored⟩
  case stage =>
    rintro k rfl
    refine ⟨s.stage.setIfInBounds k.val (v.setWidth 8), ?_, fun j => ?_⟩
    · rw [step_write_idle hb (by omega) he, writeReg_stage]
    · simp [Vector.getElem_setIfInBounds, Fin.ext_iff, eq_comm]
  case ignored =>
    intro h
    rw [step_write_idle hb (by omega) he, writeReg_ignored v _ h]
  all_goals
    rintro rfl
    exact step_write_idle hb (by decide) he

/-- Settles O40: every value is the definition's, and with no move pending and BUSY 0 nothing runs. -/
theorem resetState : Obligations.ResetState :=
  ⟨rfl, rfl, rfl, rfl, rfl, rfl, step_of_quiet rfl⟩

end Sys2Proof.Machine
end

section
/-! PROOFS. XMEM and the parts that read it (spec/20_memory.md): what an evaluation reads (R48, R49), that nothing of the block
writes it (R43), how a stored command stays what it was (R54), and the emission (R47). -/
namespace Sys2Proof.Machine

/-! ### What a drawing command reads (20 R48, R49) -/

/-- The byte of the bitmap `RAW` reads: on the device the column's quotient is the floor (20 R45). -/
theorem processRaw_congr {p : Params} {m m' : List Host.Cell} {buf : Word} {q : Pixel}
    (h : xread m (zext buf + q.y * (rowBytes p : Int) + q.x / 8) =
      xread m' (zext buf + q.y * (rowBytes p : Int) + q.x / 8)) : processRaw p m buf q = processRaw p m' buf q := by
  refine ite_congr rfl (fun hon => ?_) fun _ => rfl
  obtain ⟨⟨hx, -⟩, -⟩ := (onDevice_iff p q.x q.y).mp hon
  have hdiv : tdiv q.x 8 = q.x / 8 := Int.tdiv_eq_ediv_of_nonneg hx
  simp only [rawByte, hdiv, h]

/-- A descriptor is six bytes (20 R46). -/
theorem readFont_congr {m m' : List Host.Cell} {fnt : Word}
    (h : ∀ k : Nat, k < 6 → xread m (zext fnt + k) = xread m' (zext fnt + k)) : readFont m fnt = readFont m' fnt := by
  have h0 : xread m (zext fnt) = xread m' (zext fnt) := by simpa using h 0 (by decide)
  have h1 : xread m (zext fnt + 1) = xread m' (zext fnt + 1) := h 1 (by decide)
  have h2 : xread m (zext fnt + 2) = xread m' (zext fnt + 2) := h 2 (by decide)
  have h3 : xread m (zext fnt + 3) = xread m' (zext fnt + 3) := h 3 (by decide)
  have h4 : xread m (zext fnt + 4) = xread m' (zext fnt + 4) := h 4 (by decide)
  have h5 : xread m (zext fnt + 5) = xread m' (zext fnt + 5) := h 5 (by decide)
  simp only [readFont, xread16, h0, h1, h2, h3, h4, h5]

/-- A cell is at least the spacing column (42 R130). -/
theorem readFont_cell_pos (m : List Host.Cell) (fnt : Word) : 0 < (readFont m fnt).cell :=
  Int.lt_add_one_of_le (zextByte_bounds _).1

/-- Within the length of the text the character is one of the string, in either direction (42 R133, R134). -/
theorem textChar_bounds (o : BitVec 2) {f : Font} {len scale u : Int} (hcell : 0 < f.cell) (hscale : 0 < scale)
    (h0 : 0 ≤ u) (h1 : u < f.cell * scale * len) : 0 ≤ textChar o f len scale u ∧ textChar o f len scale u < len := by
  have hw : 0 < f.cell * scale := Int.mul_pos hcell hscale
  have hlo : 0 ≤ tdiv u (f.cell * scale) := Int.tdiv_nonneg h0 hw.le
  have hhi : tdiv u (f.cell * scale) < len := by
    rw [tdiv, Int.tdiv_eq_ediv_of_nonneg h0]
    exact Int.ediv_lt_of_lt_mul hw (by rwa [mul_comm] at h1)
  dsimp only [textChar]
  split <;> omega

/-- The column lies in the cell, in either direction (42 R133, R135). -/
theorem textColumn_bounds (o : BitVec 2) {f : Font} (hcell : 0 < f.cell) (scale u : Int) :
    0 ≤ textColumn o f scale u ∧ textColumn o f scale u < f.cell := by
  dsimp only [textColumn, posmod]
  split <;> exact ⟨Int.emod_nonneg _ hcell.ne', Int.emod_lt_of_pos _ hcell⟩

/-- A glyph lookup reads one character of the string and one byte of the charmap's `COUNT * GW` (42 R138, R139). -/
theorem glyphBit_congr {m m' : List Host.Cell} {f : Font} {str : Word} {ci c : Int} (bi : Int)
    (hstr : xread m (zext str + ci) = xread m' (zext str + ci))
    (hmap : ∀ k : Int, 0 ≤ k → k < f.count * f.gw → xread m (f.charmap + k) = xread m' (f.charmap + k))
    (h0 : 0 ≤ c) (h1 : c < f.gw) : glyphBit m f str ci c bi = glyphBit m' f str ci c bi := by
  dsimp only [glyphBit]
  rw [hstr]
  generalize zextByte (xread m' (zext str + ci)) - f.offset = g
  refine ite_congr rfl (fun ⟨hg0, hg1⟩ => ?_) fun _ => rfl
  have hlo : 0 ≤ g * f.gw + c := Int.add_nonneg (Int.mul_nonneg hg0 (h0.trans h1.le)) h0
  have hhi : g * f.gw + c < f.count * f.gw := calc
    g * f.gw + c < (g + 1) * f.gw := by linarith
    _ ≤ f.count * f.gw := Int.mul_le_mul_of_nonneg_right hg1 (h0.trans h1.le)
  rw [add_assoc, hmap _ hlo hhi]

/-- Membership of `TEXT`: its tests read the descriptor alone, and what they let through looks up a character of the string in the
charmap (42 R132 to R139). -/
theorem memberText_congr {p : Params} {m m' : List Host.Cell} {str fnt len : Word} {scale : Byte} (x y : Word) (q : Pixel)
    (hscale : scale ≠ 0) (hfnt : ∀ k : Nat, k < 6 → xread m (zext fnt + k) = xread m' (zext fnt + k))
    (hstr : ∀ k : Nat, k < len.toNat → xread m (zext str + k) = xread m' (zext str + k))
    (hmap : ∀ k : Int, 0 ≤ k → k < (readFont m fnt).count * (readFont m fnt).gw →
      xread m ((readFont m fnt).charmap + k) = xread m' ((readFont m fnt).charmap + k)) :
    memberText p m x y str fnt len scale q = memberText p m' x y str fnt len scale q := by
  have hcell := readFont_cell_pos m fnt
  have hpos : 0 < zextByte scale := Int.natCast_pos.mpr (Nat.pos_of_ne_zero fun h => hscale (BitVec.eq_of_toNat_eq h))
  dsimp only [memberText]
  rw [← readFont_congr hfnt]
  refine ite_congr rfl (fun _ => rfl) fun hinside => ite_congr rfl (fun _ => rfl) fun hspacing =>
    ite_congr rfl (fun _ => rfl) fun _ => ?_
  obtain ⟨⟨⟨hu0, hu1⟩, -⟩, -⟩ := by simpa [textOutside] using hinside
  obtain ⟨hc0, hc1⟩ := textColumn_bounds q.o hcell (zextByte scale) (textOffsets p x y q).1
  obtain ⟨hi0, hi1⟩ := textChar_bounds q.o hcell hpos hu0 hu1
  obtain ⟨k, hk⟩ := Int.eq_ofNat_of_zero_le hi0
  refine glyphBit_congr _ ?_ hmap hc0 (lt_of_le_of_ne (Int.lt_add_one_iff.mp hc1) hspacing)
  rw [hk] at hi1 ⊢
  exact hstr k (Int.ofNat_lt.mp hi1)

/-- Settles O23: a geometric command's evaluation has no argument for XMEM, `RAW` reads its byte and `TEXT` what `memberText` reads. -/
theorem evaluationReadsOnlyItsBytes : Obligations.EvaluationReadsOnlyItsBytes := by
  intro p m m' q
  refine ⟨fun _ _ => rfl, fun _ _ _ _ => ⟨rfl, rfl, rfl, rfl, rfl⟩, fun _ => processRaw_congr,
    fun x y str fnt len scale hfnt hstr hmap => ?_⟩
  refine ite_congr rfl (fun _ => rfl) fun hscale => ?_
  rw [memberText_congr x y q hscale hfnt hstr hmap]

/-! ### Nothing of the block writes XMEM or a parameter (20 R43, 10 R21) -/

/-- No command writes XMEM or a parameter. -/
theorem exec_xmem_params {i : Instr} {s t : State} (h : exec i s = .next t) : t.xmem = s.xmem ∧ t.params = s.params := by
  cases i with
  | point | line | rectF | rectO | circleF | circleO | text | raw =>
    obtain ⟨w, d, rfl⟩ := exec_drawing_next rfl h
    exact ⟨rfl, rfl⟩
  | push => rcases execPush_next h with ⟨c, -, rfl⟩ | ⟨-, -, -, rfl⟩ <;> exact ⟨rfl, rfl⟩
  | pop => rcases execPop_next h with ⟨-, rfl⟩ | rfl <;> exact ⟨rfl, rfl⟩
  | process =>
    obtain ⟨b, d, rfl⟩ := execProcess_next h
    exact ⟨rfl, rfl⟩
  | render =>
    obtain rfl := execRender_next h
    exact ⟨rfl, rfl⟩

/-- The parameters never change, over any step. -/
theorem step_params {s t : State} (h : step s = .next t) : t.params = s.params := by
  rcases step_cases h with ⟨-, -, rfl⟩ | ⟨-, m, rest, -, rfl⟩ | ⟨u, hu, -, -, rfl⟩ | ⟨u, w, d, hu, -, -, rfl⟩ |
    ⟨-, v, rest, i, -, -, hx⟩ | ⟨-, e, o, st, stt, a, b, c, d, rfl⟩ | ⟨e, r, rfl⟩ | ⟨-, a, b, rest, -, rfl⟩ | ⟨rest, -, rfl⟩
  · rfl
  · rfl
  · obtain rfl | ⟨e, rfl⟩ := hu <;> exact emitByte_params _
  · obtain rfl | ⟨e, rfl⟩ := hu <;> exact advanceSweep_params _
  · exact (exec_xmem_params hx).2
  all_goals rfl

/-- XMEM changes over a step only where HOST puts a byte into it, BUSY 0. -/
theorem step_xmem {s t : State} (h : step s = .next t) :
    t.xmem = s.xmem ∨ (s.busy = false ∧ ∃ a b rest, s.env = .hostXmem a b :: rest) := by
  rcases step_cases h with ⟨-, -, rfl⟩ | ⟨-, m, rest, -, rfl⟩ | ⟨u, hu, -, -, rfl⟩ | ⟨u, w, d, hu, -, -, rfl⟩ |
    ⟨-, v, rest, i, -, -, hx⟩ | ⟨-, e, o, st, stt, a, b, c, d, rfl⟩ | ⟨e, r, rfl⟩ | ⟨hb, a, b, rest, he, -⟩ | ⟨rest, -, rfl⟩
  · exact .inl rfl
  · exact .inl rfl
  · left; obtain rfl | ⟨e, rfl⟩ := hu <;> exact emitByte_xmem _
  · left; obtain rfl | ⟨e, rfl⟩ := hu <;> exact advanceSweep_xmem _
  · exact .inl (exec_xmem_params hx).1
  · exact .inl rfl
  · exact .inl rfl
  · exact .inr ⟨hb, a, b, rest, he⟩
  · exact .inl rfl

/-- Settles O59: no command writes either, and of a step's other effects only HOST's move writes XMEM. -/
theorem blockNeverWritesXmem : Obligations.BlockNeverWritesXmem :=
  ⟨fun _ _ _ => exec_xmem_params, fun _ _ h => ⟨step_params h, step_xmem h⟩⟩

/-! ### A stored command (20 R54, 30 R63) -/

/-- A command's image decodes to it, whatever payload bytes follow its own (30 R63 to R69). -/
theorem decodeImage_encodePayload_append {i : Instr} (hw : i.WellFormed) (hd : i.isDrawing = true) (tail : List Byte) :
    decodeImage (leadByte i) (encodePayload i ++ tail) = .ok i := by
  cases i with
  | point | line | rectF | rectO | circleF | circleO | raw =>
    simp [decodeImage, leadByte, encodePayload, fieldBytes, decodePoint, decodeLine, decodeRect, decodeCircle, decodeRaw,
      rectByFlags, circleByFlags]
  | text x y str fnt len scale =>
    simpa [decodeImage, leadByte, encodePayload, fieldBytes, decodeText, textByScale] using hw
  | push | pop | process | render => cases hd

/-- After an accepted PUSH the new slot decodes to the staged image's command. -/
theorem push_decodeSlot_new {s t : State} {i : Instr} (hi : decodeImage s.stageTag s.stage.toList = .ok i)
    (h : exec .push s = .next t) (hrej : t.rej = false) : decodeSlot t s.size.toNat = .ok i := by
  rcases execPush_next h with ⟨c, -, rfl⟩ | ⟨-, -, -, rfl⟩
  · cases hrej
  · show decodeSlot (writeSlot s.size.toNat s.stageTag s.stage.toList s) s.size.toNat = .ok i
    rw [decodeSlot, slotAt_writeSlot_same]
    exact decodeImage_take_append hi _

/-- PUSH writes slot SIZE alone. -/
theorem push_decodeSlot_below {s t : State} {n : Nat} (h : execPush s = .next t) (hn : n < s.size.toNat) :
    decodeSlot t n = decodeSlot s n := by
  rcases execPush_next h with ⟨c, -, rfl⟩ | ⟨-, -, -, rfl⟩
  · rfl
  · show decodeSlot (writeSlot s.size.toNat s.stageTag s.stage.toList s) n = decodeSlot s n
    rw [decodeSlot, slotAt_writeSlot_other hn.ne]
    rfl

/-- Reset leaves no slot valid (10 R28). -/
theorem step_reset_size {s t : State} (h : step s = .next t) (hreset : s.env.head? = some .reset) : t.size.toNat = 0 := by
  obtain ⟨rest, he⟩ := List.head?_eq_some_iff.mp hreset
  obtain rfl := Host.Outcome.next.inj ((step_of_quiet (fetch_of_env he)).symm.trans h)
  rfl

/-- A step keeps the command of every slot that is valid before it and after it: only PUSH writes a slot, one above the valid ones,
and reset leaves no slot valid. -/
theorem step_decodeSlot {s t : State} {n : Nat} (h : step s = .next t) (hs : n < s.size.toNat) (ht : n < t.size.toNat) :
    decodeSlot t n = decodeSlot s n := by
  rcases step_command_reset_or_keeps h with hreset | ⟨-, v, rest, i, -, hc, hx⟩ | ⟨hslots, -⟩
  · rw [step_reset_size h hreset] at ht
    exact absurd ht (Nat.not_lt_zero n)
  · rcases hostCommand_slots_flags hc hx with ⟨hslots, -⟩ | rfl
    · exact decodeSlot_congr (step_params h) hslots n
    · exact push_decodeSlot_below (s := { s with env := rest }) hx hs
  · exact decodeSlot_congr (step_params h) hslots n

/-- Settles O28: the staged bytes begin with the command's own, so the slot PUSH writes decodes to it, and steps keep it. -/
theorem pushedCommandIsStored : Obligations.PushedCommandIsStored := by
  refine ⟨fun s t i hw hd htag hpre hx hrej => push_decodeSlot_new ?_ hx hrej, fun _ _ _ => step_decodeSlot⟩
  obtain ⟨tail, htail⟩ := List.isPrefixOf_iff_prefix.mp hpre
  rw [htag, ← htail]
  exact decodeImage_encodePayload_append hw hd tail

/-! ### The emission (20 R47, 44 R172, 70 R223) -/

/-- A due emission is ENGINE's move, the environment having none left or giving it the turn. -/
theorem step_emission {s u : State} (hb : s.busy = true)
    (hu : (s.env = [] ∧ u = s) ∨ (∃ rest, s.env = .engine :: rest ∧ u = { s with env := rest }))
    (hdone : s.size.toNat ≤ s.ci) : step s = .next (emitByte u) := by
  obtain ⟨he, rfl⟩ | ⟨rest, he, rfl⟩ := hu <;> refine step_of_quiet ?_
  · simp [fetch, he, engineMove, foldDone, hb, hdone]
  · rw [fetch_of_env he]
    simp [envMove, engineMove, foldDone, hb, hdone]

/-- Inside a row the next position is the next byte column. -/
theorem emitByte_nextColumn {s : State} (h : s.xg + 1 < s.params.width / 8) :
    emitByte s = { s with out := s.out ++ [s.wb], xg := s.xg + 1, ci := 0, bi := 0, wb := 0xFF } := if_pos h

/-- At the end of a row the next position begins the next row. -/
theorem emitByte_nextRow {s : State} (hcol : s.params.width / 8 ≤ s.xg + 1) (hrow : s.y + 1 < s.params.height) :
    emitByte s = { s with out := s.out ++ [s.wb], y := s.y + 1, xg := 0, ci := 0, bi := 0, wb := 0xFF } :=
  (if_neg hcol.not_gt).trans (if_pos hrow)

/-- At the end of the last row the pass ends. -/
theorem emitByte_lastPosition {s : State} (hcol : s.params.width / 8 ≤ s.xg + 1) (hrow : s.params.height ≤ s.y + 1) :
    emitByte s = endPass { s with out := s.out ++ [s.wb] } :=
  (if_neg hcol.not_gt).trans (if_neg hrow.not_gt)

/-- Settles O42: the emission in each of its three positions, whichever way ENGINE came to move. -/
theorem emissionAdvancesThePass : Obligations.EmissionAdvancesThePass := by
  intro s u hb hu hdone
  rw [step_emission hb hu hdone]
  obtain ⟨-, rfl⟩ | ⟨rest, -, rfl⟩ := hu <;>
    exact ⟨fun hcol => congrArg _ (emitByte_nextColumn hcol), fun hcol hrow => congrArg _ (emitByte_nextRow hcol hrow),
      fun hcol hrow => congrArg _ (emitByte_lastPosition hcol hrow)⟩

end Sys2Proof.Machine
end

section
/-! PROOFS. The encodings (spec/30_encoding.md): the round trips of slot images and host command codes (R60 to R69, R75), the
reserved images (R72), the fields of `IMG` (R70), the outline rectangle as four lines (R78), and the dispatch of a decoded
instruction (R75, R76). -/
namespace Sys2Proof

/-! ### Decoding what was encoded (30 R60, R63 to R69) -/

/-- A drawing command's payload is its TAG's footprint (30 R62). -/
theorem encodePayload_length {i : Instr} (hd : i.isDrawing = true) : (encodePayload i).length = footprint (leadByte i) := by
  cases i with
  | point | line | rectF | rectO | circleF | circleO | text | raw => rfl
  | push | pop | process | render => cases hd

/-- Two bytes or more are a slot image (30 R60). -/
theorem decodeBytes_cons {tag : Byte} {pl : List Byte} (h : pl ≠ []) : decodeBytes (tag :: pl) = decodeImage tag pl := by
  cases pl with
  | nil => exact absurd rfl h
  | cons b bs => rfl

/-- A drawing command's image has payload bytes, so it is no host command code (30 R60). -/
theorem encodePayload_ne_nil {i : Instr} (hd : i.isDrawing = true) : encodePayload i ≠ [] := by
  cases i with
  | point | line | rectF | rectO | circleF | circleO | text | raw => exact List.cons_ne_nil _ _
  | push | pop | process | render => cases hd

/-- The one byte of a host command decodes to it (30 R75). -/
theorem decodeBytes_encode_hostCommand {i : Instr} (hd : i.isDrawing = false) : decodeBytes (encode i) = .ok i := by
  cases i with
  | point | line | rectF | rectO | circleF | circleO | text | raw => cases hd
  | push | pop | process | render => rfl

/-- The image of a drawing command decodes to it (30 R60, R63). -/
theorem decodeBytes_encode_drawing {i : Instr} (hw : i.WellFormed) (hd : i.isDrawing = true) :
    decodeBytes (encode i) = .ok i := by
  rw [encode, decodeBytes_cons (encodePayload_ne_nil hd)]
  simpa using Machine.decodeImage_encodePayload_append hw hd []

/-- Settles O1: a host command by its one byte, a drawing command by its image, whose decoder looks no further than the payload's
own bytes. -/
theorem decodeOfEncodeIsTheCommand : Obligations.DecodeOfEncodeIsTheCommand := by
  intro i hw
  refine ⟨?_, Machine.decodeImage_encodePayload_append hw⟩
  cases hd : i.isDrawing with
  | true => exact decodeBytes_encode_drawing hw hd
  | false => exact decodeBytes_encode_hostCommand hd

/-! ### Encoding what was decoded (30 R62, R63), format by format -/

theorem encode_of_decodePoint {pl : List Byte} {i : Instr} (h : decodePoint pl = .ok i) :
    i.WellFormed ∧ encode i = 1 :: pl.take 4 := by
  unfold decodePoint at h
  split at h <;> cases h
  exact ⟨trivial, by simp [encode, leadByte, encodePayload, fieldBytes]⟩

theorem encode_of_decodeLine {pl : List Byte} {i : Instr} (h : decodeLine pl = .ok i) :
    i.WellFormed ∧ encode i = 2 :: pl.take 8 := by
  unfold decodeLine at h
  split at h <;> cases h
  exact ⟨trivial, by simp [encode, leadByte, encodePayload, fieldBytes]⟩

/-- What a Rectangle's or a Circle's FLAGS byte chooses (30 R66, R67): the filled command, the outline, or neither. -/
def byFilled (flags : Byte) (filled outline : Instr) : Except DecodeError Instr :=
  if flags = 1 then .ok filled else if flags = 0 then .ok outline else .error .reservedFlags

theorem rectByFlags_eq (x y w h : Word) (flags : Byte) :
    rectByFlags x y w h flags = byFilled flags (.rectF x y w h) (.rectO x y w h) := rfl

theorem circleByFlags_eq (cx cy r : Word) (flags : Byte) :
    circleByFlags cx cy r flags = byFilled flags (.circleF cx cy r) (.circleO cx cy r) := rfl

theorem byFilled_ok {flags : Byte} {filled outline i : Instr} (h : byFilled flags filled outline = .ok i) :
    (flags = 1 ∧ i = filled) ∨ (flags = 0 ∧ i = outline) := by
  unfold byFilled at h
  split at h
  next hf => cases h; exact .inl ⟨hf, rfl⟩
  next =>
    split at h <;> cases h
    next hf => exact .inr ⟨hf, rfl⟩

/-- The image is reserved exactly where one of the bits 7:1 of FLAGS is set. -/
theorem byFilled_error_iff (flags : Byte) (filled outline : Instr) :
    (∃ e, byFilled flags filled outline = .error e) ↔ flags.toNat / 2 ≠ 0 := by
  unfold byFilled
  split
  next hf => simp [hf]
  next h1 =>
    split
    next hf => simp [hf]
    next h0 => exact iff_of_true ⟨_, rfl⟩ (by bv_omega)

theorem encode_of_decodeRect {pl : List Byte} {i : Instr} (h : decodeRect pl = .ok i) :
    i.WellFormed ∧ encode i = 3 :: pl.take 9 := by
  unfold decodeRect at h
  split at h
  · rw [rectByFlags_eq] at h
    obtain ⟨rfl, rfl⟩ | ⟨rfl, rfl⟩ := byFilled_ok h <;>
      exact ⟨trivial, by simp [encode, leadByte, encodePayload, fieldBytes]⟩
  · cases h

theorem encode_of_decodeCircle {pl : List Byte} {i : Instr} (h : decodeCircle pl = .ok i) :
    i.WellFormed ∧ encode i = 4 :: pl.take 7 := by
  unfold decodeCircle at h
  split at h
  · rw [circleByFlags_eq] at h
    obtain ⟨rfl, rfl⟩ | ⟨rfl, rfl⟩ := byFilled_ok h <;>
      exact ⟨trivial, by simp [encode, leadByte, encodePayload, fieldBytes]⟩
  · cases h

theorem encode_of_decodeText {pl : List Byte} {i : Instr} (h : decodeText pl = .ok i) :
    i.WellFormed ∧ encode i = 5 :: pl.take 11 := by
  unfold decodeText textByScale at h
  repeat' split at h
  all_goals cases h
  next hscale => exact ⟨hscale, by simp [encode, leadByte, encodePayload, fieldBytes]⟩

theorem encode_of_decodeRaw {pl : List Byte} {i : Instr} (h : decodeRaw pl = .ok i) :
    i.WellFormed ∧ encode i = 6 :: pl.take 2 := by
  unfold decodeRaw at h
  split at h <;> cases h
  exact ⟨trivial, by simp [encode, leadByte, encodePayload, fieldBytes]⟩

/-- An image that decodes is, in its TAG's footprint, the encoding of a well-formed command (30 R62, R63). -/
theorem encode_of_decodeImage {tag : Byte} {pl : List Byte} {i : Instr} (h : decodeImage tag pl = .ok i) :
    i.WellFormed ∧ encode i = tag :: pl.take (footprint tag) := by
  obtain ⟨rfl, hd⟩ | ⟨rfl, hd⟩ | ⟨rfl, hd⟩ | ⟨rfl, hd⟩ | ⟨rfl, hd⟩ | ⟨rfl, hd⟩ := decodeImage_cases h
  · exact encode_of_decodePoint hd
  · exact encode_of_decodeLine hd
  · exact encode_of_decodeRect hd
  · exact encode_of_decodeCircle hd
  · exact encode_of_decodeText hd
  · exact encode_of_decodeRaw hd

/-- Settles O2: the encoding's first byte and payload, read off the whole image. -/
theorem encodeOfDecodeIsTheImage : Obligations.EncodeOfDecodeIsTheImage := by
  intro tag pl i h
  obtain ⟨hw, he⟩ := encode_of_decodeImage h
  obtain ⟨htag, hpl⟩ := List.cons.inj he
  have hd := decodeImage_isDrawing h
  exact ⟨hw, hd, htag, hpl, htag ▸ encodePayload_length hd⟩

/-! ### The reserved images (30 R72) -/

/-- A Text is reserved exactly where its SCALE is 0 (30 R68). -/
theorem textByScale_error_iff (x y str fnt len : Word) (scale : Byte) :
    (∃ e, textByScale x y str fnt len scale = .error e) ↔ scale.toNat = 0 := by
  unfold textByScale
  split
  next hs => simp [hs]
  next hs => exact iff_of_false nofun (by bv_omega)

/-- The staging buffer's bytes, in order (10 R18). -/
theorem stage_toList (v : Vector Byte 11) :
    v.toList = [v[0], v[1], v[2], v[3], v[4], v[5], v[6], v[7], v[8], v[9], v[10]] :=
  List.ext_getElem (by simp) fun k hk _ => by
    simp only [Vector.length_toList] at hk
    interval_cases k <;> simp

/-- Which staged images are reserved (30 R72). -/
theorem decodeImage_stage_error_iff (tag : Byte) (v : Vector Byte 11) :
    (∃ e, decodeImage tag v.toList = .error e) ↔
      tag.toNat = 0 ∨ 7 ≤ tag.toNat ∨ (tag.toNat = 3 ∧ v[8].toNat / 2 ≠ 0) ∨ (tag.toNat = 4 ∧ v[6].toNat / 2 ≠ 0) ∨
        (tag.toNat = 5 ∧ v[10].toNat = 0) := by
  rw [stage_toList, decodeImage]
  split
  next ht => exact iff_of_false nofun (by omega)
  next ht => exact iff_of_false nofun (by omega)
  next ht => exact (byFilled_error_iff v[8] _ _).trans (by omega)
  next ht => exact (byFilled_error_iff v[6] _ _).trans (by omega)
  next ht => exact (textByScale_error_iff _ _ _ _ _ v[10]).trans (by omega)
  next ht => exact iff_of_false nofun (by omega)
  next =>
    simp only [imp_false] at *
    exact iff_of_true ⟨_, rfl⟩ (by omega)

/-- Settles O3: the reserved images, and PUSH, whose other outcomes all need an image that decodes. -/
theorem reservedImagesAreRejected : Obligations.ReservedImagesAreRejected := by
  intro s
  refine ⟨(decodeImage_stage_error_iff s.stageTag s.stage).symm, ?_⟩
  rintro ⟨e, he⟩
  obtain ⟨-, hrej⟩ | ⟨i, hi, -⟩ := Machine.execPush_cases s
  · exact hrej
  · rw [he] at hi
    cases hi

/-! ### The fields of `IMG` (30 R64 to R70) -/

@[simp] theorem imageNumber_nil : imageNumber [] = 0 := rfl

@[simp] theorem imageNumber_cons (b : Byte) (bs : List Byte) :
    imageNumber (b :: bs) = b.toNat + 2 ^ 8 * imageNumber bs := rfl

/-- A field and what follows it 16 bits further up. -/
@[simp] theorem imageNumber_fieldBytes_append (w : Word) (bs : List Byte) :
    imageNumber (fieldBytes w ++ bs) = w.toNat + 2 ^ 16 * imageNumber bs := by
  rw [← loByte_add_hiByte w]
  simp only [fieldBytes, List.cons_append, List.nil_append, imageNumber_cons]
  ring

@[simp] theorem imageNumber_fieldBytes (w : Word) : imageNumber (fieldBytes w) = w.toNat := by
  simpa using imageNumber_fieldBytes_append w []

/-- `IMG` of a command: its TAG in bits 7:0, the payload above. -/
theorem imageNumber_encode (i : Instr) : imageNumber (encode i) = (leadByte i).toNat + 2 ^ 8 * imageNumber (encodePayload i) :=
  rfl

/-- Settles O4: field after field, each 16 bits above the one before. -/
theorem imageFieldsLieAtTheirBits : Obligations.ImageFieldsLieAtTheirBits := by
  refine ⟨?_, ?_, ?_, ?_, ?_, ?_, ?_, ?_⟩ <;> intros <;>
    simp only [imageNumber_encode, leadByte, encodePayload, List.append_assoc, imageNumber_fieldBytes_append,
      imageNumber_fieldBytes, imageNumber_cons, imageNumber_nil, BitVec.reduceToNat] <;> ring

/-! ### Words of the opcode table -/

/-- Settles O5: each word evaluated. -/
theorem specWordsDecode : Obligations.SpecWordsDecode := by
  unfold Obligations.SpecWordsDecode
  decide

end Sys2Proof

namespace Sys2Proof.Machine

/-! ### The outline rectangle as four lines (30 R78) -/

/-- A line whose endpoints share their row is its horizontal run: a vertical one of no extent lies in it (41 R104). -/
theorem memberLine_horizontal (p : Params) (x0 x1 y : Word) (q : Pixel) :
    memberLine p x0 y x1 y q = onRow (transform p q.o (sext x0) (sext y)).1 (transform p q.o (sext x0) (sext y)).2
      (sext x1 - sext x0) q.x q.y := by
  rw [Bool.eq_iff_iff, memberLine_iff]
  simp only [onRow_iff, onColumn_iff]
  omega

/-- A line whose endpoints share their column is its vertical run (41 R104). -/
theorem memberLine_vertical (p : Params) (x y0 y1 : Word) (q : Pixel) :
    memberLine p x y0 x y1 q = onColumn (transform p q.o (sext x) (sext y0)).1 (transform p q.o (sext x) (sext y0)).2
      (sext y1 - sext y0) q.x q.y := by
  rw [Bool.eq_iff_iff, memberLine_iff]
  simp only [onRow_iff, onColumn_iff]
  omega

/-- Settles O16: each of the four lines is an edge, its anchor being the corner the edge starts at. -/
theorem outlineIsFourLines : Obligations.OutlineIsFourLines := by
  intro p x y w h q ho hx hy
  have hx' : sext (x + w) = sext x + sext w := hx
  have hy' : sext (y + h) = sext y + sext h := hy
  simp only [memberRectO, memberLine_horizontal, memberLine_vertical, ho, transform_0, hx', hy', add_sub_cancel_left]

/-! ### The dispatch of a decoded instruction (30 R75, R76, 44 R172) -/

/-- A code on the `CMD` of an idle block runs its host command (30 R75). -/
theorem step_hostCommand {s : State} {v : Word} {rest : List EnvMove} {i : Instr} (hb : s.busy = false)
    (he : s.env = .write 0x00 v :: rest) (hc : decodeCode (v.setWidth 8) = .ok i) :
    step s = exec i { s with env := rest } := by
  have hf : fetch s = .command i { s with env := rest } := by
    rw [fetch_of_env he]
    simp [envMove, hostWrite, hb, hc]
  rw [step_eq, hf]

/-- A reserved code on `CMD` is ignored (30 R76). -/
theorem step_reservedCode {s : State} {v : Word} {rest : List EnvMove} (hb : s.busy = false)
    (he : s.env = .write 0x00 v :: rest) (hc : decodeCode (v.setWidth 8) = .error .reservedCode) :
    step s = .next { s with env := rest } := by
  refine step_of_quiet ((fetch_of_env he).trans ?_)
  simp [envMove, hostWrite, hb, hc]

/-- ENGINE has the turn: no move of the environment is pending, or the next one passes the turn to it. -/
theorem fetch_engine {s u : State}
    (hu : (s.env = [] ∧ u = s) ∨ (∃ rest, s.env = .engine :: rest ∧ u = { s with env := rest })) :
    fetch s = engineMove u := by
  obtain ⟨he, rfl⟩ | ⟨rest, he, rfl⟩ := hu
  · rw [fetch, he]
  · exact fetch_of_env he

/-- In a pass ENGINE evaluates the command of slot `CI` and the sweep advances (44 R172). -/
theorem step_evaluation {s u : State} {i : Instr} (hb : s.busy = true)
    (hu : (s.env = [] ∧ u = s) ∨ (∃ rest, s.env = .engine :: rest ∧ u = { s with env := rest }))
    (hci : s.ci < s.size.toNat) (hd : decodeSlot s s.ci = .ok i) : step s = thenAdvance (exec i u) := by
  have hm : engineMove u = .evaluate i u := by
    have hdu : decodeSlot u u.ci = .ok i := by obtain ⟨-, rfl⟩ | ⟨rest, -, rfl⟩ := hu <;> exact hd
    have hbu : u.busy = true := by obtain ⟨-, rfl⟩ | ⟨rest, -, rfl⟩ := hu <;> exact hb
    have hcu : u.ci < u.size.toNat := by obtain ⟨-, rfl⟩ | ⟨rest, -, rfl⟩ := hu <;> exact hci
    simp [engineMove, foldDone, hbu, hcu, hdu]
  rw [step_eq, fetch_engine hu, hm]

/-- Settles O32: the write of a code to `CMD`, and ENGINE's turn in a pass. -/
theorem stepRunsTheDecodedInstruction : Obligations.StepRunsTheDecodedInstruction := by
  refine ⟨fun s v rest i hb he hc => step_hostCommand hb he hc, fun s u i hb hu hci hd => ?_⟩
  rw [step_evaluation hb hu hci hd]
  cases exec i u <;> rfl

/-- The low byte of a value on `CMD`. -/
theorem setWidth_8_of_mod {v : Word} {n : Nat} (h : v.toNat % 256 = n) : v.setWidth 8 = BitVec.ofNat 8 n := by
  subst h
  apply BitVec.eq_of_toNat_eq
  simp

/-- Every byte but the four codes is reserved (30 R76). -/
theorem decodeCode_reserved {c : Byte} (h : c.toNat = 0 ∨ 5 ≤ c.toNat) : decodeCode c = .error .reservedCode := by
  unfold decodeCode
  split
  iterate 4 omega
  rfl

/-- Settles O33: the low byte of the value is one of the four codes, or reserved; in a pass the write is dropped. -/
theorem commandCodes : Obligations.CommandCodes := by
  intro s v rest he
  have runs : ∀ {n : Nat} {i : Instr}, decodeCode (BitVec.ofNat 8 n) = .ok i → s.busy = false → v.toNat % 256 = n →
      step s = exec i { s with env := rest } :=
    fun hi hb hv => step_hostCommand hb he (setWidth_8_of_mod hv ▸ hi)
  refine ⟨runs rfl, runs rfl, runs rfl, runs rfl, fun hb hv => ?_, fun hb => step_write_busy hb he⟩
  refine step_reservedCode hb he (decodeCode_reserved ?_)
  rwa [BitVec.toNat_setWidth]

end Sys2Proof.Machine
end

section
/-! PROOFS. The orientation transform (spec/40_orientation_transform.md): its formulas and the range of its results (R90), its
algebra (R95), and its edge values with what they mean for a drawing command (R97). -/
namespace Sys2Proof.Machine

/-! ### The formulas (40 R90) -/

/-- The range of `T` on `int16` coordinates: each component copies one or takes it from `W` or `H`, both at most 32767. -/
theorem transform_bounds (p : Params) (o : BitVec 2) {x y : Int} (hx : -32768 ≤ x ∧ x < 32768)
    (hy : -32768 ≤ y ∧ y < 32768) :
    -32768 ≤ (transform p o x y).1 ∧ (transform p o x y).1 ≤ 65535 ∧
      -32768 ≤ (transform p o x y).2 ∧ (transform p o x y).2 ≤ 65535 := by
  obtain ⟨-, hw8, hw, hh1, hh, -⟩ := p.legal
  obtain rfl | rfl | rfl | rfl := orientation_cases o
  · rw [transform_0]; omega
  · rw [transform_1]; omega
  · rw [transform_2]; omega
  · rw [transform_3]; omega

/-- Settles O6: the formulas are the definition's cases, and the range is that of `int16` coordinates. -/
theorem transformFormulas : Obligations.TransformFormulas := fun p =>
  ⟨fun x y => ⟨transform_0 p x y, transform_1 p x y, transform_2 p x y, transform_3 p x y⟩,
    fun o x y => transform_bounds p o (sext_bounds x) (sext_bounds y)⟩

/-! ### The algebra (40 R95) -/

/-- Orientation 2 is an involution. -/
theorem transform_2_2 (p : Params) (x y : Int) : transform p 2 (transform p 2 x y).1 (transform p 2 x y).2 = (x, y) := by
  simp only [transform_2, sub_sub_cancel]

/-- Orientation 1 twice is a translation by `W - H` along x and back along y. -/
theorem transform_1_1 (p : Params) (x y : Int) : transform p 1 (transform p 1 x y).1 (transform p 1 x y).2 =
    (x + p.width - p.height, y + p.height - p.width) := by
  simp only [transform_1, Prod.mk.injEq]
  omega

/-- Orientation 1 is an involution exactly on a square device. -/
theorem transform_1_involution_iff (p : Params) :
    (∀ x y : Int, transform p 1 (transform p 1 x y).1 (transform p 1 x y).2 = (x, y)) ↔ p.width = p.height := by
  simp only [transform_1_1, Prod.mk.injEq]
  constructor
  · intro h
    obtain ⟨hx, -⟩ := h 0 0
    omega
  · intro h x y
    omega

/-- Settles O7: orientations 0 and 3 and the two mixed compositions are their formulas; the rest are the lemmas above. -/
theorem transformAlgebra : Obligations.TransformAlgebra := fun p =>
  ⟨fun x y => ⟨transform_0 p x y, transform_2_2 p x y, rfl, transform_1_1 p x y, rfl, rfl⟩, transform_1_involution_iff p⟩

/-! ### The edge values (40 R97) -/

/-- The logical points on the device under orientation 1: `W - y` and `H - x` are a column and a row of it. -/
theorem onDevice_transform_1_iff (p : Params) (x y : Int) :
    onDevice p (transform p 1 x y).1 (transform p 1 x y).2 = true ↔ 1 ≤ y ∧ y ≤ p.width ∧ 1 ≤ x ∧ x ≤ p.height := by
  rw [onDevice_iff, transform_1]
  omega

/-- The logical points on the device under orientation 3: `y` is a column and `x` a row of it. -/
theorem onDevice_transform_3_iff (p : Params) (x y : Int) :
    onDevice p (transform p 3 x y).1 (transform p 3 x y).2 = true ↔
      0 ≤ y ∧ y ≤ (p.width : Int) - 1 ∧ 0 ≤ x ∧ x ≤ (p.height : Int) - 1 := by
  rw [onDevice_iff, transform_3]
  omega

/-- A `POINT` draws nothing at a pixel its transformed point misses (41 R101). -/
theorem processCmd_point_of_ne {p : Params} {px py : Word} {q : Pixel}
    (h : (q.x, q.y) ≠ transform p q.o (sext px) (sext py)) (m : List Host.Cell) :
    processCmd p m (.point px py) q = .byte q.wb := by
  have hm : memberPoint p px py q = false := Bool.eq_false_iff.mpr (mt (memberPoint_iff p px py q).mp h)
  simp only [processCmd, processPoint, hm, clearIf, Bool.false_eq_true, if_false]

/-- A `POINT` whose transformed point is off the device draws nothing on it (30 R73). -/
theorem processCmd_point_of_offDevice {p : Params} {px py : Word} {q : Pixel}
    (hoff : ¬ onDevice p (transform p q.o (sext px) (sext py)).1 (transform p q.o (sext px) (sext py)).2 = true)
    (hon : onDevice p q.x q.y = true) (m : List Host.Cell) : processCmd p m (.point px py) q = .byte q.wb :=
  processCmd_point_of_ne (fun h => hoff (h ▸ hon)) m

/-- Under orientation 2 the logical origin lies one past the last column and row. -/
theorem not_onDevice_transform_2_origin (p : Params) :
    ¬ onDevice p (transform p 2 (sext 0) (sext 0)).1 (transform p 2 (sext 0) (sext 0)).2 = true := by
  rw [onDevice_iff, transform_2, show sext 0 = 0 from rfl]
  omega

/-- Settles O8: the edge points by the formulas of orientation 2; its logical origin is off the device, where a `POINT` draws
nothing. -/
theorem transformEdges : Obligations.TransformEdges := by
  intro p
  refine ⟨?_, transform_2 p 1 1, ?_, onDevice_transform_1_iff p, onDevice_transform_3_iff p, ?_⟩
  · rw [transform_2, sub_zero, sub_zero]
  · rw [transform_2, sub_self, sub_self]
  · intro xg bi y wb m hx hb hy
    exact processCmd_point_of_offDevice (not_onDevice_transform_2_origin p) (onDevice_lane hx hb hy) m

end Sys2Proof.Machine
end

section
/-! PROOFS. The primitive drawing commands (spec/41_primitive_commands.md): what each owns (R101 to R118), the byte of `RAW` (R122),
the laws of the clear-only commands (R125), and a buffer that ends with a `RAW` (R123). -/
namespace Sys2Proof.Machine

/-! ### A clear-only command at the sweep position (41 R100, 44 R172) -/

theorem isDrawing_of_isClearOnly {c : Instr} (h : c.isClearOnly = true) : c.isDrawing = true := by
  cases c with
  | point | line | rectF | rectO | circleF | circleO | text => rfl
  | raw | push | pop | process | render => cases h

/-- A clear-only command that has a membership there completes, draws the swept pixel where it owns it, and changes nothing
else. -/
theorem exec_clearOnly {c : Instr} {s : State} {member : Bool} {P : Prop} [Decidable P] (hc : c.isClearOnly = true)
    (hw : c.wf = true) (hm : memberCmd s.params s.xmem c (sweepPixel s) = some member) (hP : member = true ↔ P) :
    exec c s = .next { s with wb := if P then clear s.wb (8 * s.xg + s.bi) else s.wb } := by
  rw [exec_drawing (isDrawing_of_isClearOnly hc), processCmd_clearOnly hc hw, hm]
  simp only [clearIf, hP]
  rfl

/-- Settles O10: its membership is equality with the transformed point (41 R101). -/
theorem pointOwnsItsPixel : Obligations.PointOwnsItsPixel := by
  rintro px py s x y tx ty rfl rfl ht
  refine exec_clearOnly rfl rfl rfl ((memberPoint_iff s.params px py (sweepPixel s)).trans ?_)
  exact (Eq.congr_right ht.symm).trans Prod.mk_inj

/-! ### Lines (41 R104, R105) -/

/-- Settles O11: the two runs of `memberLine_iff`, from the transformed first endpoint (41 R104). -/
theorem lineOwnsItsRun : Obligations.LineOwnsItsRun := by
  rintro x0 y0 x1 y1 s x y tx ty rfl rfl ht
  obtain ⟨rfl, rfl⟩ := Prod.ext_iff.mp ht
  refine exec_clearOnly rfl rfl rfl ((memberLine_iff s.params x0 y0 x1 y1 (sweepPixel s)).trans ?_)
  simp only [onRow_iff, onColumn_iff, sub_eq_zero]
  rfl

/-- A diagonal line is neither horizontal nor vertical (41 R105 (a)). -/
theorem memberLine_diagonal {x0 y0 x1 y1 : Word} (hx : x0 ≠ x1) (hy : y0 ≠ y1) (p : Params) (q : Pixel) :
    memberLine p x0 y0 x1 y1 q = false := by
  rw [Bool.eq_false_iff, Ne, memberLine_iff, sub_eq_zero, sub_eq_zero, sext_inj, sext_inj]
  rintro (⟨h, -⟩ | ⟨h, -⟩)
  · exact hy h.symm
  · exact hx h.symm

/-- A run of negative extent is empty. -/
theorem onRow_of_neg {ex : Int} (h : ex < 0) (tx ty x y : Int) : onRow tx ty ex x y = false := by
  rw [Bool.eq_false_iff, Ne, onRow_iff]
  omega

theorem onColumn_of_neg {ey : Int} (h : ey < 0) (tx ty x y : Int) : onColumn tx ty ey x y = false := by
  rw [Bool.eq_false_iff, Ne, onColumn_iff]
  omega

/-- A line of one point owns its transformed point (41 R105 (c)). -/
theorem memberLine_degenerate_iff (p : Params) (x0 y0 : Word) (q : Pixel) :
    memberLine p x0 y0 x0 y0 q = true ↔ (q.x, q.y) = transform p q.o (sext x0) (sext y0) := by
  rw [memberLine_horizontal, onRow_iff, Prod.ext_iff]
  omega

/-- Settles O12: a descending line is a run of negative extent. -/
theorem lineCornerCases : Obligations.LineCornerCases := by
  intro p x0 y0 x1 y1 q
  refine ⟨fun hx hy => memberLine_diagonal hx hy p q, fun h => ?_, fun h => ?_, memberLine_degenerate_iff p x0 y0 q⟩
  · rw [memberLine_horizontal]
    exact onRow_of_neg (sub_neg_of_lt h) _ _ _ _
  · rw [memberLine_vertical]
    exact onColumn_of_neg (sub_neg_of_lt h) _ _ _ _

/-! ### Rectangles (41 R110, R112, R113) -/

/-- Settles O13: the box of `memberRectF_iff` (41 R110). -/
theorem filledRectangleOwnsItsBox : Obligations.FilledRectangleOwnsItsBox := by
  rintro x0 y0 w h s x y tx ty rfl rfl ht
  obtain ⟨rfl, rfl⟩ := Prod.ext_iff.mp ht
  exact exec_clearOnly rfl rfl rfl (memberRectF_iff s.params x0 y0 w h (sweepPixel s))

/-- The four edges, the two rows and the two columns taken together (41 R112). -/
theorem memberRectO_iff (p : Params) (x0 y0 w h : Word) (q : Pixel) {tx ty : Int}
    (ht : (tx, ty) = transform p q.o (sext x0) (sext y0)) :
    memberRectO p x0 y0 w h q = true ↔
      ((q.y = ty ∨ q.y = ty + sext h) ∧ tx ≤ q.x ∧ q.x ≤ tx + sext w) ∨
      ((q.x = tx ∨ q.x = tx + sext w) ∧ ty ≤ q.y ∧ q.y ≤ ty + sext h) := by
  simp only [memberRectO, ← ht, Bool.or_eq_true, onRow_iff, onColumn_iff]
  tauto

/-- Settles O14: the four edges of `memberRectO_iff`. -/
theorem outlineRectangleOwnsItsEdges : Obligations.OutlineRectangleOwnsItsEdges := by
  rintro x0 y0 w h s x y tx ty rfl rfl ht
  exact exec_clearOnly rfl rfl rfl (memberRectO_iff s.params x0 y0 w h (sweepPixel s) ht)

/-- Settles O15: edges and box are bounds on the same four numbers, so that the signs of the extents decide each clause. -/
theorem outlineIsTheBoundary : Obligations.OutlineIsTheBoundary := by
  intro p x0 y0 w h q tx ty ht
  have hO := memberRectO_iff p x0 y0 w h q ht
  have hF := memberRectF_iff p x0 y0 w h q
  obtain ⟨rfl, rfl⟩ := Prod.ext_iff.mp ht
  unfold sext at hO hF
  refine ⟨fun _ _ => ?_, fun _ _ _ => ?_, fun _ _ => ?_, fun _ _ => ?_, fun _ _ => ?_⟩
  · rw [hO, hF]; omega
  · rw [Bool.eq_iff_iff, hO, hF]; omega
  · rw [hO]; omega
  · rw [hO]; omega
  · rw [Bool.eq_false_iff, Ne, hO]; omega

/-! ### Circles (41 R116 to R118) -/

/-- A pixel whose `d2` is below `(r + 1)^2` passes the bounding check (41 R116). -/
theorem circleNear_of_d2_lt {r : Int} {d : Int × Int} (hr : 0 ≤ r) (h : circleD2 d < (r + 1) * (r + 1)) :
    circleNear r d = true := by
  have near : ∀ a : Int, a * a < (r + 1) * (r + 1) → |a| ≤ r + 1 := fun a ha =>
    (abs_lt_iff_mul_self_lt.mpr ha).le.trans_eq (abs_of_nonneg (by omega))
  rw [circleD2] at h
  rw [circleNear_iff]
  exact ⟨near _ (by linarith [mul_self_nonneg d.2]), near _ (by linarith [mul_self_nonneg d.1])⟩

theorem circleD2_nonneg (d : Int × Int) : 0 ≤ circleD2 d := add_nonneg (mul_self_nonneg _) (mul_self_nonneg _)

/-- The disc: the bounding check changes nothing (41 R117). -/
theorem memberCircleF_iff (p : Params) (cx cy r : Word) (q : Pixel) :
    memberCircleF p cx cy r q = true ↔ circleD2 (circleOffset p cx cy q) ≤ zext r * zext r := by
  obtain ⟨hr, -⟩ := zext_bounds r
  rw [memberCircleF, Bool.and_eq_true, decide_eq_true_eq, and_iff_right_iff_imp]
  intro h
  exact circleNear_of_d2_lt hr (by linarith)

/-- The rounding test of the ring in quarters is one on whole numbers (41 R118). -/
theorem onRing_iff_between {r d2 : Int} (hr : 0 ≤ r) (hd : 0 ≤ d2) :
    onRing r d2 = true ↔ (r = 0 ∧ d2 = 0) ∨ (1 ≤ r ∧ r * r - r + 1 ≤ d2 ∧ d2 ≤ r * r + r) := by
  have hout : (2 * r + 1) * (2 * r + 1) = 4 * (r * r) + 4 * r + 1 := by ring
  have hin : (2 * r - 1) * (2 * r - 1) = 4 * (r * r) - 4 * r + 1 := by ring
  rw [onRing_iff, hout, hin]
  obtain rfl | hpos : r = 0 ∨ 1 ≤ r := by omega
  · omega
  · omega

/-- The ring lies within the bounding check (41 R116, R118). -/
theorem memberCircleO_iff (p : Params) (cx cy r : Word) (q : Pixel) :
    memberCircleO p cx cy r q = true ↔ onRing (zext r) (circleD2 (circleOffset p cx cy q)) = true := by
  obtain ⟨hr, -⟩ := zext_bounds r
  rw [memberCircleO, Bool.and_eq_true, and_iff_right_iff_imp]
  intro h
  obtain ⟨hlt, -⟩ := (onRing_iff _ _).mp h
  exact circleNear_of_d2_lt hr (by linarith)

/-- Settles O17: the disc of `memberCircleF_iff`. -/
theorem filledCircleOwnsItsDisc : Obligations.FilledCircleOwnsItsDisc := by
  rintro cx cy r s x y tx ty rfl rfl ht
  obtain ⟨rfl, rfl⟩ := Prod.ext_iff.mp ht
  exact exec_clearOnly rfl rfl rfl (memberCircleF_iff s.params cx cy r (sweepPixel s))

/-- Settles O18: the ring of `memberCircleO_iff`, its radius a natural number. -/
theorem outlineCircleOwnsItsRing : Obligations.OutlineCircleOwnsItsRing := by
  rintro cx cy r s x y tx ty d2 rfl rfl ht rfl
  obtain ⟨rfl, rfl⟩ := Prod.ext_iff.mp ht
  refine exec_clearOnly rfl rfl rfl ((memberCircleO_iff s.params cx cy r (sweepPixel s)).trans ?_)
  rw [onRing_iff_between (zext_bounds r).1 (circleD2_nonneg _)]
  unfold zext
  norm_cast
  
/-! ### RAW (41 R122) -/

theorem processCmd_raw_onDevice {p : Params} {q : Pixel} (h : onDevice p q.x q.y = true) (m : List Host.Cell) (buf : Word) :
    processCmd p m (.raw buf) q = .byte (rawByte p m buf q.x q.y) := if_pos h

theorem processCmd_raw_offDevice {p : Params} {q : Pixel} (h : ¬ onDevice p q.x q.y = true) (m : List Host.Cell)
    (buf : Word) : processCmd p m (.raw buf) q = .unspecified := if_neg h

/-- A `RAW` at a lane of a byte position of the device gives the bitmap's byte for it (20 R45). -/
theorem processCmd_raw_lane {p : Params} {xg bi y : Nat} (hx : xg < p.width / 8) (hb : bi < 8) (hy : y < p.height)
    (m : List Host.Cell) (buf : Word) (wb : Byte) (o : BitVec 2) :
    processCmd p m (.raw buf) { wb := wb, x := 8 * (xg : Int) + bi, y := y, o := o } =
      .byte (xread m (zext buf + ((y * (p.width / 8) + xg : Nat) : Int))) := by
  rw [processCmd_raw_onDevice (onDevice_lane hx hb hy), rawByte_lane p m buf hb]

/-- Settles O19: the byte of the sweep's lane on the device, a draw off it. -/
theorem rawReplacesTheByte : Obligations.RawReplacesTheByte := by
  intro buf s
  rw [exec_drawing rfl]
  constructor
  · intro hx hb hy
    rw [sweepPixel, processCmd_raw_lane hx hb hy]
    rfl
  · intro hoff
    have hon : ¬ onDevice s.params (8 * (s.xg : Int) + s.bi) s.y = true := by
      rw [onDevice_iff]
      omega
    rw [sweepPixel, processCmd_raw_offDevice hon]
    rfl

/-! ### The laws of the clear-only commands (41 R125) -/

/-- What an evaluation keeps of the working byte: every bit but the pixel's where the command owns it. -/
def keptBits (member : Bool) (x : Int) : Byte := if member then ~~~ mask x else BitVec.allOnes 8

theorem clearIf_eq (member : Bool) (q : Pixel) : clearIf member q = .byte (q.wb &&& keptBits member q.x) := by
  cases member
  · exact congrArg Eval.byte BitVec.and_allOnes.symm
  · rfl

/-- Every column but the pixel's is kept. -/
theorem keptBits_getLsbD (member : Bool) {x : Int} {k : Nat} (hk : k < 8) (hx : (k : Int) ≠ 7 - x % 8) :
    (keptBits member x).getLsbD k = true := by
  cases member with
  | false => simp only [keptBits, Bool.false_eq_true, if_false, BitVec.getLsbD_allOnes, hk, decide_true]
  | true => simp only [keptBits, if_true, BitVec.getLsbD_not, mask_getLsbD, hk, hx, decide_true, decide_false, Bool.not_false,
      Bool.and_true]

/-- A command whose evaluation has a value is no reserved image (30 R72). -/
theorem wf_of_processCmd_byte {p : Params} {m : List Host.Cell} {c : Instr} {q : Pixel} {b : Byte}
    (h : processCmd p m c q = .byte b) : c.wf = true := by
  cases c with
  | text x y str fnt len scale =>
    rw [Instr.wf, bne_iff_ne]
    rintro rfl
    cases h
  | point | line | rectF | rectO | circleF | circleO | raw | push | pop | process | render => rfl

/-- Membership does not depend on the working byte. -/
theorem memberCmd_wb (p : Params) (m : List Host.Cell) (c : Instr) (q : Pixel) (wb : Byte) :
    memberCmd p m c { q with wb := wb } = memberCmd p m c q := by
  cases c <;> rfl

/-- A clear-only evaluation that has a value is, for every working byte, its conjunction with the bits kept. -/
theorem processCmd_keeps {p : Params} {m : List Host.Cell} {c : Instr} {q : Pixel} {b : Byte} (hc : c.isClearOnly = true)
    (h : processCmd p m c q = .byte b) :
    ∃ member, memberCmd p m c q = some member ∧
      ∀ wb, processCmd p m c { q with wb := wb } = .byte (wb &&& keptBits member q.x) := by
  have hw := wf_of_processCmd_byte h
  rw [processCmd_clearOnly hc hw] at h
  cases hm : memberCmd p m c q with
  | none => rw [hm] at h; cases h
  | some member =>
    refine ⟨member, rfl, fun wb => ?_⟩
    rw [processCmd_clearOnly hc hw, memberCmd_wb, hm]
    exact clearIf_eq member { q with wb := wb }

/-- Settles O24: the laws of the conjunction with a fixed byte. -/
theorem clearOnlyLaws : Obligations.ClearOnlyLaws := by
  intro p m c q b hc h
  obtain ⟨member, hm, hk⟩ := processCmd_keeps hc h
  obtain rfl : q.wb &&& keptBits member q.x = b := Eval.byte.inj ((hk q.wb).symm.trans h)
  refine ⟨?_, fun k hx => ?_, ?_, fun hout => ?_, fun c' b' hc' h' => ?_⟩
  · rw [BitVec.and_comm, ← BitVec.and_assoc, BitVec.and_self]
  · rw [BitVec.getLsbD_and]
    by_cases h8 : k < 8
    · rw [keptBits_getLsbD member h8 hx, Bool.and_true]
    · rw [BitVec.getLsbD_of_ge q.wb k (by omega), Bool.false_and]
  · rw [hk, BitVec.and_assoc, BitVec.and_self]
  · obtain rfl : member = false := Option.some.inj (hm.symm.trans hout)
    exact BitVec.and_allOnes
  · obtain ⟨member', -, hk'⟩ := processCmd_keeps hc' h'
    obtain rfl : q.wb &&& keptBits member' q.x = b' := Eval.byte.inj ((hk' q.wb).symm.trans h')
    refine ⟨_, hk' _, ?_⟩
    rw [hk]
    ac_rfl

/-! ### A `RAW` at the end of the buffer (41 R123) -/

/-- At a byte position of the device a `RAW` over one lane or more leaves the bitmap's byte, whatever the byte before (20 R45). -/
theorem foldLanes_raw {p : Params} {xg y : Nat} (hx : xg < p.width / 8) (hy : y < p.height) (m : List Host.Cell)
    (o : BitVec 2) (buf : Word) {lanes : List Nat} (hne : lanes ≠ []) (hl : ∀ bi ∈ lanes, bi < 8) (wb : Byte) :
    foldLanes p m o y xg (.raw buf) lanes wb = some (xread m (zext buf + ((y * (p.width / 8) + xg : Nat) : Int))) := by
  induction lanes generalizing wb with
  | nil => exact absurd rfl hne
  | cons bi rest ih =>
    have hb : bi < 8 := hl bi List.mem_cons_self
    rw [foldLanes, List.foldlM_cons, processByte, processCmd_raw_lane hx hb hy]
    cases rest with
    | nil => rfl
    | cons bi' rest => exact ih (List.cons_ne_nil _ _) (fun k hk => hl k (List.mem_cons_of_mem _ hk)) _

/-- A `RAW` put last gives its byte at every position where the commands before it have a value. -/
theorem passByte_append_raw {p : Params} {xg y : Nat} (hx : xg < p.width / 8) (hy : y < p.height) {m : List Host.Cell}
    {o : BitVec 2} {cmds : List Instr} {b : Byte} (h : passByte p m o cmds y xg = some b) (buf : Word) :
    passByte p m o (cmds ++ [.raw buf]) y xg = some (xread m (zext buf + ((y * (p.width / 8) + xg : Nat) : Int))) := by
  rw [passByte, foldCommands] at h ⊢
  rw [List.foldlM_append, h, Option.bind_eq_bind, Option.bind_some, List.foldlM_cons,
    foldLanes_raw hx hy m o buf (by decide) (fun bi => List.mem_range.mp)]
  rfl

/-- Position number `k` of a pass lies on the device. -/
theorem position_onDevice {p : Params} {k : Nat} (hk : k < p.width / 8 * p.height) :
    k % (p.width / 8) < p.width / 8 ∧ k / (p.width / 8) < p.height :=
  ⟨Nat.mod_lt _ (Nat.pos_of_mul_pos_right (Nat.zero_lt_of_lt hk)), Nat.div_lt_of_lt_mul hk⟩

/-- The positions by their number: row by row (44 R173). -/
theorem positions_eq_map (p : Params) :
    positions p = (List.range (p.width / 8 * p.height)).map (fun k => (k / (p.width / 8), k % (p.width / 8))) := by
  refine List.ext_getElem (by rw [positions_length, List.length_map, List.length_range]) fun k hk _ => ?_
  rw [positions_length] at hk
  obtain ⟨hx, hy⟩ := position_onDevice hk
  have hat := positions_getElem hx hy
  rw [Nat.div_add_mod'] at hat
  obtain ⟨_, hat⟩ := List.getElem?_eq_some_iff.mp hat
  rw [hat, List.getElem_map, List.getElem_range]

/-- Where a pass has its bytes, every position has one. -/
theorem passByte_of_passBytes {p : Params} {m : List Host.Cell} {o : BitVec 2} {cmds : List Instr} {bs : List Byte}
    (h : passBytes p m o cmds = some bs) {y xg : Nat} (hx : xg < p.width / 8) (hy : y < p.height) :
    ∃ b, passByte p m o cmds y xg = some b := by
  rw [passBytes, mapM_eq_some] at h
  have hmem := List.mem_map_of_mem (f := fun at_ => passByte p m o cmds at_.1 at_.2)
    (List.mem_of_getElem? (positions_getElem hx hy))
  rw [h] at hmem
  obtain ⟨b, -, hb⟩ := List.mem_map.mp hmem
  exact ⟨b, hb.symm⟩

/-- Settles O48: position number `k` has its byte at `BUF + k`. -/
theorem rawLastReproducesTheBitmap : Obligations.RawLastReproducesTheBitmap := by
  rintro p m o cmds buf ⟨bs, hbs⟩
  rw [passBytes, mapM_eq_some, positions_eq_map, List.map_map, List.map_map]
  refine List.map_congr_left fun k hk => ?_
  obtain ⟨hx, hy⟩ := position_onDevice (List.mem_range.mp hk)
  obtain ⟨b, hb⟩ := passByte_of_passBytes hbs hx hy
  have hraw := passByte_append_raw hx hy hb buf
  rwa [Nat.div_add_mod'] at hraw

end Sys2Proof.Machine
end

section
/-! PROOFS. The Text command (spec/42_text_command.md): the bit of a glyph a pixel tests (R131 to R136, R141), its lookup (R138,
R139), and what `TEXT` does there and elsewhere. -/
namespace Sys2Proof.Machine

/-! ### The place of a pixel in the text (42 R131 to R136) -/

/-- The offsets of the two layouts (42 R131). -/
theorem textOffsets_eq {p : Params} {ax ay : Word} {q : Pixel} {tx ty u v : Int}
    (ht : (tx, ty) = transform p q.o (sext ax) (sext ay)) (hhor : q.o = 0 ∨ q.o = 2 → u = q.x - tx ∧ v = q.y - ty)
    (hver : q.o = 1 ∨ q.o = 3 → u = q.y - ty ∧ v = q.x - tx) : textOffsets p ax ay q = (u, v) := by
  dsimp only [textOffsets]
  rw [← ht]
  by_cases hv : q.o = 1 ∨ q.o = 3
  · obtain ⟨rfl, rfl⟩ := hver hv
    exact if_pos (by simpa [isVertical] using hv)
  · obtain ⟨rfl, rfl⟩ := hhor (by have := orientation_cases q.o; tauto)
    exact if_neg (by simpa [isVertical] using hv)

/-- A bound closed at its far end allows one offset of the last quotient (42 R132, R140 (d)). -/
theorem le_mul_iff_ediv {v n d : Int} (hd : 0 < d) : v ≤ n * d ↔ v / d ≤ n ∧ (v / d = n → v % d = 0) := by
  have hv := Int.mul_ediv_add_emod v d
  have h0 := Int.emod_nonneg v hd.ne'
  constructor
  · intro h
    have hle : v / d ≤ n := Int.ediv_le_of_le_mul hd h
    refine ⟨hle, ?_⟩
    rintro rfl
    linarith
  · rintro ⟨hle, hlast⟩
    obtain hlt | rfl := hle.lt_or_eq
    · exact (Int.lt_mul_of_ediv_lt hd hlt).le
    · linarith [hlast rfl]

/-- Within the bounds: the cell is one of the string, the row one of the glyph or the first of the row beyond it (42 R132, R133). -/
theorem textOutside_eq_false_iff {f : Font} {len scale u v : Int} (hcell : 0 < f.cell) (hscale : 0 < scale) :
    textOutside f len scale u v = false ↔ (0 ≤ u ∧ u / scale / f.cell < len) ∧
      0 ≤ v ∧ v / scale ≤ f.gh ∧ (v / scale = f.gh → v % scale = 0) := by
  have hu : u < f.cell * scale * len ↔ u / scale / f.cell < len := by
    rw [Int.ediv_lt_iff_lt_mul hcell, Int.ediv_lt_iff_lt_mul hscale]
    ring_nf
  rw [← hu, ← le_mul_iff_ediv hscale]
  simp [textOutside, and_assoc]

theorem textChar_eq (o : BitVec 2) (f : Font) (len scale : Int) {u : Int} (hscale : 0 < scale) (hu : 0 ≤ u) :
    textChar o f len scale u =
      if isReversed o then len - 1 - u / scale / f.cell else u / scale / f.cell := by
  dsimp only [textChar]
  rw [tdiv, Int.tdiv_eq_ediv_of_nonneg hu, mul_comm, Int.ediv_ediv_of_nonneg hscale.le]

/-- In both forms the spacing column is the last of its cell (42 R135). -/
theorem textColumn_eq (o : BitVec 2) {f : Font} (scale : Int) {u : Int} (hgw : 0 ≤ f.gw) (hu : 0 ≤ u) :
    textColumn o f scale u = if u / scale % f.cell = f.gw then f.gw
      else if isReversed o then f.gw - 1 - u / scale % f.cell else u / scale % f.cell := by
  have hcell : 0 < f.cell := Int.lt_add_one_of_le hgw
  have hj0 := Int.emod_nonneg (u / scale) hcell.ne'
  have hj := Int.emod_lt_of_pos (u / scale) hcell
  dsimp only [textColumn, posmod]
  rw [tdiv, Int.tdiv_eq_ediv_of_nonneg hu, ← Int.sub_emod_emod]
  generalize u / scale % f.cell = j at *
  unfold Font.cell at *
  split_ifs with hrev hspace hspace
  · rw [hspace, ← Int.add_emod_right, Int.emod_eq_of_lt (by omega) (by omega)]
    omega
  · exact Int.emod_eq_of_lt (by omega) (by omega)
  · exact hspace
  · rfl

theorem textBit_eq (o : BitVec 2) (f : Font) (scale : Int) {v : Int} (hv : 0 ≤ v) :
    textBit o f scale v = if isRowFlipped o then f.gh - 1 - v / scale else v / scale := by
  dsimp only [textBit]
  rw [tdiv, Int.tdiv_eq_ediv_of_nonneg hv]

/-- The four rows of the table are the model's three selections (42 R134 to R136, R141). -/
theorem glyphTable_iff (o : BitVec 2) (f : Font) (len gi j rr ci c bi : Int) :
    ((o = 0 → ci = gi ∧ c = j ∧ bi = rr) ∧ (o = 1 → ci = gi ∧ c = j ∧ bi = f.gh - 1 - rr) ∧
      (o = 2 → ci = len - 1 - gi ∧ c = f.gw - 1 - j ∧ bi = f.gh - 1 - rr) ∧
      (o = 3 → ci = len - 1 - gi ∧ c = f.gw - 1 - j ∧ bi = rr)) ↔
    ci = (if isReversed o then len - 1 - gi else gi) ∧ c = (if isReversed o then f.gw - 1 - j else j) ∧
      bi = (if isRowFlipped o then f.gh - 1 - rr else rr) := by
  obtain rfl | rfl | rfl | rfl := orientation_cases o <;> simp [isReversed, isRowFlipped]

/-- The place of `GlyphAt` is the one the quotients and remainders of the offsets name (42 R133). -/
theorem glyphAt_iff_quotients (o : BitVec 2) {f : Font} {len scale : Int} (u v ci c bi : Int) (hcell : 0 < f.cell)
    (hscale : 0 < scale) :
    GlyphAt o f len scale u v ci c bi ↔
      ((0 ≤ u ∧ u / scale / f.cell < len) ∧ 0 ≤ v ∧ v / scale ≤ f.gh ∧ (v / scale = f.gh → v % scale = 0)) ∧
      u / scale % f.cell < f.gw ∧ (0 ≤ bi ∧ bi ≤ 7) ∧
      ci = (if isReversed o then len - 1 - u / scale / f.cell else u / scale / f.cell) ∧
      c = (if isReversed o then f.gw - 1 - u / scale % f.cell else u / scale % f.cell) ∧
      bi = (if isRowFlipped o then f.gh - 1 - v / scale else v / scale) := by
  constructor
  · rintro ⟨gi, j, rr, a, e, hgi0, hgi, hj0, hj, hrr0, hrr, ha0, ha, he0, he, hlast, hu, hv, h0, h1, h2, h3, hbi⟩
    obtain ⟨hk, -⟩ := (Int.ediv_emod_unique hscale).mpr
      ⟨show a + scale * (gi * f.cell + j) = u by rw [hu, Font.cell]; ring, ha0, ha⟩
    obtain ⟨hcell', hcol⟩ := (Int.ediv_emod_unique hcell).mpr
      ⟨show j + f.cell * gi = u / scale by rw [hk, Font.cell]; ring, hj0, hj.trans (Int.lt_succ _)⟩
    obtain ⟨hrow, hrep⟩ := (Int.ediv_emod_unique hscale).mpr ⟨show e + scale * rr = v by rw [hv]; ring, he0, he⟩
    rw [hcell', hcol, hrow, hrep]
    exact ⟨⟨⟨by rw [hu]; positivity, hgi⟩, by rw [hv]; positivity, hrr, hlast⟩, hj, hbi,
      (glyphTable_iff o f len gi j rr ci c bi).mp ⟨h0, h1, h2, h3⟩⟩
  · rintro ⟨⟨⟨hu, hgi⟩, hv, hrr, hlast⟩, hj, hbi, htable⟩
    obtain ⟨h0, h1, h2, h3⟩ := (glyphTable_iff o f len _ _ _ ci c bi).mpr htable
    have hk : 0 ≤ u / scale := Int.ediv_nonneg hu hscale.le
    refine ⟨u / scale / f.cell, u / scale % f.cell, v / scale, u % scale, v % scale, Int.ediv_nonneg hk hcell.le, hgi,
      Int.emod_nonneg _ hcell.ne', hj, Int.ediv_nonneg hv hscale.le, hrr, Int.emod_nonneg _ hscale.ne',
      Int.emod_lt_of_pos _ hscale, Int.emod_nonneg _ hscale.ne', Int.emod_lt_of_pos _ hscale, hlast, ?_, ?_, h0, h1, h2, h3, hbi⟩
    · exact (Int.ediv_mul_add_emod u scale).symm.trans (by rw [← Font.cell, Int.ediv_mul_add_emod (u / scale)])
    · exact (Int.ediv_mul_add_emod v scale).symm

/-- `GlyphAt` is what the bounds, spacing and bit-index tests let through, with the indexes the model computes (42 R132 to R137). -/
theorem glyphAt_iff (o : BitVec 2) {f : Font} {len scale : Int} (u v ci c bi : Int) (hgw : 0 ≤ f.gw) (hscale : 0 < scale) :
    GlyphAt o f len scale u v ci c bi ↔ textOutside f len scale u v = false ∧ textColumn o f scale u ≠ f.gw ∧
      (0 ≤ bi ∧ bi ≤ 7) ∧ ci = textChar o f len scale u ∧ c = textColumn o f scale u ∧ bi = textBit o f scale v := by
  have hcell : 0 < f.cell := Int.lt_add_one_of_le hgw
  rw [glyphAt_iff_quotients o u v ci c bi hcell hscale, textOutside_eq_false_iff hcell hscale]
  refine and_congr_right ?_
  rintro ⟨⟨hu, -⟩, hv, -⟩
  have hj0 := Int.emod_nonneg (u / scale) hcell.ne'
  have hj := Int.emod_lt_of_pos (u / scale) hcell
  rw [textChar_eq o f len scale hscale hu, textColumn_eq o scale hgw hu, textBit_eq o f scale hv]
  unfold Font.cell at *
  generalize u / scale % (f.gw + 1) = j at *
  by_cases hspace : j = f.gw
  · simp [hspace]
  · have hcol : (if isReversed o then f.gw - 1 - j else j) ≠ f.gw := by split <;> omega
    rw [if_neg hspace]
    simp only [hcol, ne_eq, not_false_eq_true, true_and, show j < f.gw by omega]

/-- The character of a bit of a glyph is one of the string's. -/
theorem GlyphAt.char_bounds {o : BitVec 2} {f : Font} {len scale u v ci c bi : Int}
    (h : GlyphAt o f len scale u v ci c bi) : 0 ≤ ci ∧ ci < len := by
  obtain ⟨gi, j, rr, a, e, hgi0, hgi, -, -, -, -, -, -, -, -, -, -, -, h0, h1, h2, h3, -⟩ := h
  obtain rfl | rfl | rfl | rfl := orientation_cases o
  · obtain ⟨rfl, -⟩ := h0 rfl; omega
  · obtain ⟨rfl, -⟩ := h1 rfl; omega
  · obtain ⟨rfl, -⟩ := h2 rfl; omega
  · obtain ⟨rfl, -⟩ := h3 rfl; omega

/-! ### Membership by the place of the pixel (42 R138, R139) -/

theorem glyphBit_of_charInFont {m : List Host.Cell} {f : Font} {str : Word} {ci c bi : Int} (h : CharInFont m str f ci)
    (hbi : 0 ≤ bi ∧ bi ≤ 7) : glyphBit m f str ci c bi =
      some ((xread m (f.charmap + (zextByte (xread m (zext str + ci)) - f.offset) * f.gw + c)).getLsbD bi.toNat) := by
  obtain ⟨hlo, hhi⟩ := h
  dsimp only [glyphBit]
  rw [if_pos ⟨by omega, by omega⟩, bitAt, decide_eq_true hbi.1, decide_eq_true hbi.2]
  rfl

theorem glyphBit_of_not_charInFont {m : List Host.Cell} {f : Font} {str : Word} {ci : Int} (h : ¬ CharInFont m str f ci)
    (c bi : Int) : glyphBit m f str ci c bi = none :=
  if_neg fun ⟨hlo, hhi⟩ => h ⟨by omega, by omega⟩

section
variable {p : Params} {m : List Host.Cell} {ax ay str fnt len : Word} {scale : Byte} {q : Pixel} {u v ci c bi : Int}

/-- `GlyphAt` in the terms of `memberText`. -/
theorem glyphAt_readFont_iff (o : BitVec 2) (hscale : scale ≠ 0) :
    GlyphAt o (readFont m fnt) len.toNat scale.toNat u v ci c bi ↔
      textOutside (readFont m fnt) (zext len) (zextByte scale) u v = false ∧
      textColumn o (readFont m fnt) (zextByte scale) u ≠ (readFont m fnt).gw ∧ (0 ≤ bi ∧ bi ≤ 7) ∧
      ci = textChar o (readFont m fnt) (zext len) (zextByte scale) u ∧
      c = textColumn o (readFont m fnt) (zextByte scale) u ∧ bi = textBit o (readFont m fnt) (zextByte scale) v :=
  glyphAt_iff o u v ci c bi (zextByte_bounds _).1
    (Int.natCast_pos.mpr (Nat.pos_of_ne_zero fun h => hscale (BitVec.eq_of_toNat_eq h)))

/-- A pixel that tests a bit of a glyph gets the lookup's answer. -/
theorem memberText_of_glyphAt (hscale : scale ≠ 0) (huv : textOffsets p ax ay q = (u, v))
    (h : GlyphAt q.o (readFont m fnt) len.toNat scale.toNat u v ci c bi) :
    memberText p m ax ay str fnt len scale q = glyphBit m (readFont m fnt) str ci c bi := by
  obtain ⟨hin, hcol, hbi, rfl, rfl, rfl⟩ := (glyphAt_readFont_iff q.o hscale).mp h
  dsimp only [memberText]
  rw [huv, if_neg (Bool.eq_false_iff.mp hin), if_neg hcol,
    if_neg (not_or.mpr ⟨hbi.1.not_gt, hbi.2.not_gt⟩)]

/-- No other pixel is a member, whatever the string holds. -/
theorem memberText_of_not_glyphAt (hscale : scale ≠ 0) (huv : textOffsets p ax ay q = (u, v))
    (h : ∀ ci c bi, ¬ GlyphAt q.o (readFont m fnt) len.toNat scale.toNat u v ci c bi) :
    memberText p m ax ay str fnt len scale q = some false := by
  dsimp only [memberText]
  rw [huv]
  refine ite_eq_left_iff.mpr fun hin => ite_eq_left_iff.mpr fun hcol => ite_eq_left_iff.mpr fun hbi => ?_
  exact absurd ((glyphAt_readFont_iff q.o hscale).mpr ⟨Bool.eq_false_iff.mpr hin, hcol, by omega, rfl, rfl, rfl⟩) (h _ _ _)

end

/-! ### `TEXT` at the sweep position (42 R138 to R140, 44 R172) -/

section
variable {ax ay str fnt len : Word} {scale : Byte} {s : State} {u v : Int}

theorem text_wf (hscale : scale ≠ 0) : (Instr.text ax ay str fnt len scale).wf = true := bne_iff_ne.mpr hscale

/-- A bit of a glyph in the font is drawn where it is set. -/
theorem exec_text_of_charInFont (hscale : scale ≠ 0) (huv : textOffsets s.params ax ay (sweepPixel s) = (u, v)) {ci c bi : Int}
    (h : GlyphAt s.orientAct (readFont s.xmem fnt) len.toNat scale.toNat u v ci c bi)
    (hchar : CharInFont s.xmem str (readFont s.xmem fnt) ci) :
    exec (.text ax ay str fnt len scale) s = .next { s with
      wb := if (xread s.xmem ((readFont s.xmem fnt).charmap + (zextByte (xread s.xmem (zext str + ci)) -
          (readFont s.xmem fnt).offset) * (readFont s.xmem fnt).gw + c)).getLsbD bi.toNat = true
        then clear s.wb (8 * s.xg + s.bi) else s.wb } := by
  obtain ⟨-, -, hbi, -⟩ := (glyphAt_readFont_iff s.orientAct hscale).mp h
  exact exec_clearOnly rfl (text_wf hscale)
    ((memberText_of_glyphAt hscale huv h).trans (glyphBit_of_charInFont hchar hbi)) Iff.rfl

/-- A bit of a glyph outside the font ends the run (93 U4). -/
theorem exec_text_of_not_charInFont (hscale : scale ≠ 0) (huv : textOffsets s.params ax ay (sweepPixel s) = (u, v))
    {ci c bi : Int} (h : GlyphAt s.orientAct (readFont s.xmem fnt) len.toNat scale.toNat u v ci c bi)
    (hchar : ¬ CharInFont s.xmem str (readFont s.xmem fnt) ci) :
    exec (.text ax ay str fnt len scale) s = .fault .glyphOutsideFont := by
  have hm : memberCmd s.params s.xmem (.text ax ay str fnt len scale) (sweepPixel s) = none :=
    (memberText_of_glyphAt hscale huv h).trans (glyphBit_of_not_charInFont hchar c bi)
  rw [exec_drawing rfl, processCmd_clearOnly rfl (text_wf hscale), hm]
  rfl

/-- Where no bit of a glyph is tested nothing changes. -/
theorem exec_text_of_not_glyphAt (hscale : scale ≠ 0) (huv : textOffsets s.params ax ay (sweepPixel s) = (u, v))
    (h : ∀ ci c bi, ¬ GlyphAt s.orientAct (readFont s.xmem fnt) len.toNat scale.toNat u v ci c bi) :
    exec (.text ax ay str fnt len scale) s = .next s :=
  exec_clearOnly rfl (text_wf hscale) (memberText_of_not_glyphAt hscale huv h) Bool.false_eq_true.to_iff

/-- Where every bit of a glyph the pixel tests is of a character in the font, `TEXT` completes. -/
theorem exec_text_completes (hscale : scale ≠ 0) (huv : textOffsets s.params ax ay (sweepPixel s) = (u, v))
    (hchars : ∀ ci c bi, GlyphAt s.orientAct (readFont s.xmem fnt) len.toNat scale.toNat u v ci c bi →
      CharInFont s.xmem str (readFont s.xmem fnt) ci) : ∃ t, exec (.text ax ay str fnt len scale) s = .next t := by
  by_cases hg : ∃ ci c bi, GlyphAt s.orientAct (readFont s.xmem fnt) len.toNat scale.toNat u v ci c bi
  · obtain ⟨ci, c, bi, h⟩ := hg
    exact ⟨_, exec_text_of_charInFont hscale huv h (hchars ci c bi h)⟩
  · push Not at hg
    exact ⟨s, exec_text_of_not_glyphAt hscale huv hg⟩

end

/-- Settles O20: at a bit of a glyph the lookup decides the pixel, elsewhere one of the tests before it has answered. -/
theorem textDrawsTheGlyphBits : Obligations.TextDrawsTheGlyphBits := by
  rintro ax ay str fnt len scale s x y tx ty u v f hscale rfl rfl rfl ht hhor hver
  have huv : textOffsets s.params ax ay (sweepPixel s) = (u, v) := textOffsets_eq ht hhor hver
  exact ⟨fun ci c bi => exec_text_of_charInFont hscale huv, exec_text_of_not_glyphAt hscale huv⟩

/-- Settles O21: without a cell or without a column that is no spacing column there is no bit of a glyph. -/
theorem emptyTextDrawsNothing : Obligations.EmptyTextDrawsNothing := by
  intro ax ay str fnt len scale s hscale hempty
  refine exec_text_of_not_glyphAt hscale rfl ?_
  rintro ci c bi ⟨gi, j, rr, a, e, hgi0, hgi, hj0, hj, -⟩
  obtain rfl | hgw := hempty
  · exact absurd hgi hgi0.not_gt
  · have hzero : (readFont s.xmem fnt).gw = 0 := congrArg zextByte hgw
    omega

/-- Settles O22: the lookup alone can fault, and a string in its font has only characters it finds. -/
theorem textFaultsOnlyOutsideTheFont : Obligations.TextFaultsOnlyOutsideTheFont := by
  rintro ax ay str fnt len scale s x y tx ty u v f hscale rfl rfl rfl ht hhor hver
  have huv : textOffsets s.params ax ay (sweepPixel s) = (u, v) := textOffsets_eq ht hhor hver
  refine ⟨fun ci c bi => exec_text_of_not_charInFont hscale huv, exec_text_completes hscale huv,
    fun hstr => exec_text_completes hscale huv fun ci c bi h => ?_⟩
  obtain ⟨h0, h1⟩ := h.char_bounds
  obtain ⟨n, rfl⟩ := Int.eq_ofNat_of_zero_le h0
  exact hstr n (Int.ofNat_lt.mp h1)

end Sys2Proof.Machine
end

section
/-! PROOFS. The command buffer (spec/43_command_buffer.md): PUSH (R151), POP (R153), PROCESS (R156), and the dispatch of a stored
command, which cannot fail (R158). -/
namespace Sys2Proof.Machine

/-! ### POP (43 R153) -/

/-- Settles O29: the two branches of POP. -/
theorem popRemovesTheLast : Obligations.PopRemovesTheLast := fun _ =>
  ⟨fun hpos => ⟨_, if_pos hpos, rfl, size_sub_one_toNat hpos⟩, fun hempty => if_neg hempty.not_gt⟩

/-! ### PUSH (43 R151) -/

/-- PUSH of an image that decodes, fits its slot and finds a free one appends it. -/
theorem exec_push_accepted {s : State} {i : Instr} (hi : decodeImage s.stageTag s.stage.toList = .ok i)
    (hfit : footprint s.stageTag ≤ s.params.slotSize) (hfree : s.size.toNat < s.params.capacity) :
    exec .push s =
      .next (setAccepted { writeSlot s.size.toNat s.stageTag s.stage.toList s with size := s.size + 1 }) := by
  rcases execPush_cases s with ⟨⟨e, he⟩, -⟩ | ⟨-, -, ⟨hbig, -⟩ | ⟨-, hfull, -⟩ | ⟨-, -, hx⟩⟩
  · cases hi.symm.trans he
  · exact absurd hfit hbig.not_ge
  · exact absurd hfull hfree.ne
  · exact hx

/-- The first `n` entries of one list, and behind them what another holds there. -/
theorem getElem?_take_append_drop {α : Type} {l l' : List α} {n : Nat} (hn : n ≤ l.length) (k : Nat) :
    (l.take n ++ l'.drop n)[k]? = if k < n then l[k]? else l'[k]? := by
  have hlen : (l.take n).length = n := List.length_take_of_le hn
  split
  · next hk => rw [List.getElem?_append_left (by omega), List.getElem?_take_of_lt hk]
  · next hk => rw [List.getElem?_append_right (by omega), List.getElem?_drop, hlen, Nat.add_sub_cancel' (by omega)]

/-- The payload of the slot PUSH writes: the staged bytes in the footprint, behind it the bytes the slot held. -/
theorem writeSlot_stage_payload (n : Nat) (s : State) (k : Nat) :
    (slotAt (writeSlot n s.stageTag s.stage.toList s) n).payload[k]? =
      if k < footprint s.stageTag then s.stage.toList[k]? else (slotAt s n).payload[k]? := by
  rw [slotAt_writeSlot_same]
  exact getElem?_take_append_drop ((footprint_le s.stageTag).trans_eq s.stage.length_toList.symm) k

/-- Settles O26: the slot file after the append, slot by slot and byte by byte. -/
theorem pushAppends : Obligations.PushAppends := by
  intro s i hi hfit hfree
  have hslot (j : Nat) : slotAt (setAccepted { writeSlot s.size.toNat s.stageTag s.stage.toList s with size := s.size + 1 }) j =
      slotAt (writeSlot s.size.toNat s.stageTag s.stage.toList s) j := slotAt_congr rfl rfl j
  refine ⟨_, exec_push_accepted hi hfit hfree, rfl, size_add_one_toNat hfree.le hfree.ne, ?_, fun k hk => ?_, fun k hk => ?_,
    fun j hj => ?_⟩ <;> rw [hslot]
  · rw [slotAt_writeSlot_same]
  · rw [writeSlot_stage_payload, if_pos hk]
  · rw [writeSlot_stage_payload, if_neg hk.not_gt]
  · exact slotAt_writeSlot_other hj _ _ s

/-! ### The evaluation of a stored command (41 R100, 43 R158) -/

/-- A stored command is no reserved image (30 R72). -/
theorem decodeSlot_wf {s : State} {n : Nat} {c : Instr} (h : decodeSlot s n = .ok c) : c.wf = true :=
  c.wf_iff.mpr (encode_of_decodeImage h).1

/-- `TEXT` of a string in its font has a membership at every pixel (42 R139). -/
theorem memberText_of_stringInFont {m : List Host.Cell} {str fnt len : Word} {scale : Byte} (p : Params) (ax ay : Word)
    (q : Pixel) (hscale : scale ≠ 0) (hstr : StringInFont m str fnt len) :
    ∃ b, memberText p m ax ay str fnt len scale q = some b := by
  by_cases hg : ∃ ci c bi, GlyphAt q.o (readFont m fnt) len.toNat scale.toNat (textOffsets p ax ay q).1
      (textOffsets p ax ay q).2 ci c bi
  · obtain ⟨ci, c, bi, h⟩ := hg
    obtain ⟨h0, h1⟩ := h.char_bounds
    obtain ⟨-, -, hbi, -⟩ := (glyphAt_readFont_iff q.o hscale).mp h
    obtain ⟨n, rfl⟩ := Int.eq_ofNat_of_zero_le h0
    exact ⟨_, (memberText_of_glyphAt hscale rfl h).trans (glyphBit_of_charInFont (hstr n (Int.ofNat_lt.mp h1)) hbi)⟩
  · push Not at hg
    exact ⟨_, memberText_of_not_glyphAt hscale rfl hg⟩

/-- A clear-only command whose string is in its font has a membership at every pixel (41 R100). -/
theorem memberCmd_of_inFont {m : List Host.Cell} {c : Instr} (p : Params) (q : Pixel) (hc : c.isClearOnly = true)
    (hw : c.wf = true) (hf : CommandInFont m c) : ∃ b, memberCmd p m c q = some b := by
  cases c with
  | point | line | rectF | rectO | circleF | circleO => exact ⟨_, rfl⟩
  | text x y str fnt len scale => exact memberText_of_stringInFont p x y q ((Instr.wf_iff _).mp hw) hf
  | raw | push | pop | process | render => cases hc

/-- Its evaluation has a value at every pixel. -/
theorem processCmd_clearOnly_of_inFont {m : List Host.Cell} {c : Instr} (p : Params) (q : Pixel) (hc : c.isClearOnly = true)
    (hw : c.wf = true) (hf : CommandInFont m c) : ∃ b, processCmd p m c q = .byte b := by
  obtain ⟨member, hm⟩ := memberCmd_of_inFont p q hc hw hf
  rw [processCmd_clearOnly hc hw, hm]
  exact ⟨_, rfl⟩

/-- A drawing command is clear-only or a `RAW` (41 R100). -/
theorem isClearOnly_or_raw {c : Instr} (h : c.isDrawing = true) : c.isClearOnly = true ∨ ∃ buf, c = .raw buf := by
  cases c with
  | point | line | rectF | rectO | circleF | circleO | text => exact .inl rfl
  | raw buf => exact .inr ⟨buf, rfl⟩
  | push | pop | process | render => cases h

/-- The evaluation of a drawing command that is no reserved image always has an evaluator (43 R158). -/
theorem processCmd_ne_noCommand {c : Instr} (hd : c.isDrawing = true) (hw : c.wf = true) (p : Params) (m : List Host.Cell)
    (q : Pixel) : processCmd p m c q ≠ .noCommand := by
  obtain hc | ⟨buf, rfl⟩ := isClearOnly_or_raw hd
  · rw [processCmd_clearOnly hc hw]
    cases memberCmd p m c q <;> nofun
  · by_cases hon : onDevice p q.x q.y = true
    · rw [processCmd_raw_onDevice hon]; nofun
    · rw [processCmd_raw_offDevice hon]; nofun

/-! ### PROCESS (43 R156) -/

/-- PROCESS of a valid slot that decodes is `intoPOut` of the evaluation at the host's pixel. -/
theorem exec_process_valid {s : State} {c : Instr} (hlt : s.pIdx.toNat < s.size.toNat)
    (hd : decodeSlot s s.pIdx.toNat = .ok c) :
    exec .process s = intoPOut (processCmd s.params s.xmem c (hostPixel s)) s := by
  rcases execProcess_cases s with ⟨-, ⟨c', hd', hx⟩ | ⟨⟨e, he⟩, -⟩⟩ | ⟨hge, -⟩
  · cases hd.symm.trans hd'
    exact hx
  · cases hd.symm.trans he
  · exact absurd hlt hge.not_gt

/-- PROCESS of an evaluation that has a value. -/
theorem exec_process_byte {s : State} {c : Instr} {b : Byte} (hlt : s.pIdx.toNat < s.size.toNat)
    (hd : decodeSlot s s.pIdx.toNat = .ok c) (hb : processCmd s.params s.xmem c (hostPixel s) = .byte b) :
    exec .process s = .next { s with pOut := b } := by
  rw [exec_process_valid hlt hd, hb]
  rfl

/-- Settles O30: the evaluation has a value for a clear-only command whose string is in its font and for a `RAW` on the device, and
is free for a `RAW` off it. -/
theorem processEvaluatesOneSlot : Obligations.ProcessEvaluatesOneSlot := by
  intro s
  refine ⟨fun c b hlt hd hb => exec_process_byte hlt hd hb, fun c hlt hd hf hat => ?_, fun buf hlt hd hoff => ?_,
    fun hge => if_neg hge.not_gt⟩
  · have hvalue : ∃ b, processCmd s.params s.xmem c (hostPixel s) = .byte b := by
      by_cases hc : c.isClearOnly = true
      · exact processCmd_clearOnly_of_inFont s.params _ hc (decodeSlot_wf hd) hf
      · obtain ⟨buf, rfl⟩ := (isClearOnly_or_raw (decodeSlot_isDrawing hd)).resolve_left hc
        obtain ⟨hx0, hx1, hy0, hy1⟩ := hat.resolve_left hc
        exact ⟨_, processCmd_raw_onDevice ((onDevice_iff _ _ _).mpr ⟨⟨hx0, hx1⟩, hy0, hy1⟩) s.xmem buf⟩
    obtain ⟨b, hb⟩ := hvalue
    exact ⟨b, hb, exec_process_byte hlt hd hb⟩
  · have hon : ¬ onDevice s.params s.pX.toInt s.pY.toInt = true := by
      rw [onDevice_iff]
      omega
    rw [exec_process_valid hlt hd, hostPixel, processCmd_raw_offDevice hon]
    rfl

/-- Settles O31: one evaluation, which the sweep puts into `WB` and PROCESS into `P_OUT`. -/
theorem processIsTheSweepsFunction : Obligations.ProcessIsTheSweepsFunction := by
  intro s c hd hidx hlt hwb hx hy ho
  have hpixel : hostPixel s = sweepPixel s := by
    rw [hostPixel, sweepPixel, sext, sext, hwb, hx, hy, ho]
  rw [exec_process_valid (hidx ▸ hlt) (hidx ▸ hd), exec_drawing (decodeSlot_isDrawing hd), hpixel]
  constructor
  · intro t ht
    rcases intoWb_next ht with ⟨b, he, rfl⟩ | ⟨he, rfl⟩ <;> rw [he] <;> rfl
  · intro f hfault
    obtain ⟨he, rfl⟩ := intoWb_fault hfault
    rw [he]
    rfl

/-! ### No step is refused (43 R158, 10 R27) -/

/-- The sweep's evaluation of a stored command is never refused. -/
theorem exec_stored_ne_refused {s : State} {n : Nat} {c : Instr} (hd : decodeSlot s n = .ok c) (u : State) (r : Refusal) :
    exec c u ≠ .refused r := by
  have hdraw := decodeSlot_isDrawing hd
  rw [exec_drawing hdraw]
  exact fun h => processCmd_ne_noCommand hdraw (decodeSlot_wf hd) _ _ _ (intoWb_refused h).1

/-- The sweep's advance refuses nothing itself. -/
theorem thenAdvance_refused {x : Host.Outcome State Fault Refusal} {r : Refusal} (h : thenAdvance x = .refused r) :
    x = .refused r := by
  cases x <;> cases h
  rfl

/-- PROCESS is never refused where every valid slot decodes. -/
theorem execProcess_ne_refused {s : State} (h : SlotsDecode s) (r : Refusal) : execProcess s ≠ .refused r := by
  rcases execProcess_cases s with ⟨hlt, ⟨c, hd, hx⟩ | ⟨⟨e, he⟩, -⟩⟩ | ⟨-, hx⟩
  · rw [hx]
    exact fun hr =>
      processCmd_ne_noCommand (decodeSlot_isDrawing hd) (decodeSlot_wf hd) _ _ _ (intoPOut_refused hr).1
  · obtain ⟨⟨c, hd⟩, -⟩ := h _ hlt
    cases hd.symm.trans he
  · rw [hx]
    nofun

/-- No host command is refused where every valid slot decodes. -/
theorem hostCommand_ne_refused {s : State} {b : Byte} {i : Instr} (h : SlotsDecode s) (hc : decodeCode b = .ok i)
    (r : Refusal) : exec i s ≠ .refused r := by
  rcases decodeCode_cases hc with ⟨-, rfl⟩ | ⟨-, rfl⟩ | ⟨-, rfl⟩ | ⟨-, rfl⟩
  · show execPush s ≠ .refused r
    rcases execPush_cases s with ⟨-, hx⟩ | ⟨-, -, ⟨-, hx⟩ | ⟨-, -, hx⟩ | ⟨-, -, hx⟩⟩ <;> rw [hx] <;> nofun
  · show execPop s ≠ .refused r
    unfold execPop
    split <;> nofun
  · exact execProcess_ne_refused h r
  · show execRender s ≠ .refused r
    nofun

/-- ENGINE's move where every valid slot decodes: no instruction, or the evaluation of a stored command. -/
theorem engineMove_of_slotsDecode {s : State} (h : SlotsDecode s) :
    (∃ t, engineMove s = .quiet t) ∨ ∃ c, decodeSlot s s.ci = .ok c ∧ engineMove s = .evaluate c s := by
  rcases engineMove_cases s with ⟨-, hm⟩ | ⟨-, -, hm⟩ | ⟨-, hlt, hev | ⟨⟨e, he⟩, -⟩⟩
  · exact .inl ⟨_, hm⟩
  · exact .inl ⟨_, hm⟩
  · exact .inr hev
  · obtain ⟨⟨c, hd⟩, -⟩ := h _ hlt
    cases hd.symm.trans he

/-- A host write runs no instruction, or the command its code names. -/
theorem hostWrite_quiet_or_command (reg : Nat) (v : Word) (s : State) :
    (∃ t, hostWrite reg v s = .quiet t) ∨
      ∃ i, decodeCode (v.setWidth 8) = .ok i ∧ hostWrite reg v s = .command i s := by
  rcases hostWrite_cases reg v s with ⟨-, hm⟩ | ⟨-, -, hcmd⟩ | ⟨-, -, -, hm⟩ | ⟨-, -, hm⟩
  · exact .inl ⟨_, hm⟩
  · exact .inr hcmd
  · exact .inl ⟨_, hm⟩
  · exact .inl ⟨_, hm⟩

/-- Everything a step can have to do where every valid slot decodes: no instruction, a stop, a host command by its code, or the
evaluation of a stored command. -/
theorem fetch_of_slotsDecode {s : State} (h : SlotsDecode s) :
    (∃ t, fetch s = .quiet t) ∨ (∃ f, fetch s = .stop f) ∨
    (∃ b i e, decodeCode b = .ok i ∧ fetch s = .command i { s with env := e }) ∨
    ∃ c u, decodeSlot u u.ci = .ok c ∧ fetch s = .evaluate c u := by
  rcases fetch_cases s with ⟨u, hf, hu⟩ | ⟨reg, v, rest, -, hf⟩ | ⟨reg, rest, -, hf⟩ | ⟨a, b, rest, -, -, hf⟩ |
    ⟨a, b, rest, -, -, hf⟩ | ⟨rest, -, -, hf⟩ | ⟨rest, -, hf⟩
  · have hslots : SlotsDecode u := by
      obtain ⟨-, rfl⟩ | ⟨m, rest, -, rfl, -⟩ := hu <;> exact h
    rw [hf]
    rcases engineMove_of_slotsDecode hslots with hquiet | ⟨c, hd, hm⟩
    · exact .inl hquiet
    · exact .inr (.inr (.inr ⟨c, u, hd, hm⟩))
  · rw [hf]
    rcases hostWrite_quiet_or_command reg v { s with env := rest } with hquiet | ⟨i, hc, hm⟩
    · exact .inl hquiet
    · exact .inr (.inr (.inl ⟨_, i, rest, hc, hm⟩))
  · exact .inl ⟨_, hf⟩
  · exact .inr (.inl ⟨_, hf⟩)
  · exact .inl ⟨_, hf⟩
  · exact .inl ⟨_, hf⟩
  · exact .inl ⟨_, hf⟩

/-- Settles O54: the fetch finds a command for every valid slot, and neither a host command nor an evaluation is refused. -/
theorem dispatchCannotFail : Obligations.DispatchCannotFail := by
  intro s r hinv hstep
  have hslots := hinv.slots_decode
  rw [step_eq] at hstep
  rcases fetch_of_slotsDecode hslots with ⟨t, hf⟩ | ⟨f, hf⟩ | ⟨b, i, e, hc, hf⟩ | ⟨c, u, hd, hf⟩ <;> rw [hf] at hstep
  · cases hstep
  · cases hstep
  · exact hostCommand_ne_refused (s := { s with env := e }) hslots hc r hstep
  · exact exec_stored_ne_refused hd u r (thenAdvance_refused hstep)

end Sys2Proof.Machine
end

section
/-! PROOFS. The loop nest of a render pass as a function (spec/44_render_pipeline.md R172 to R179): where it has a value, the
order of its bytes, and the closed form of each. -/
namespace Sys2Proof.Machine

/-! ### Folds of steps that may have no value -/

/-- A fold has a value where each of its steps has one. -/
theorem foldlM_exists {α β : Type} {f : β → α → Option β} {l : List α} (h : ∀ a ∈ l, ∀ b, ∃ b', f b a = some b') (b : β) :
    ∃ r, l.foldlM f b = some r := by
  induction l generalizing b with
  | nil => exact ⟨b, rfl⟩
  | cons a l ih =>
    obtain ⟨b', hb'⟩ := h a List.mem_cons_self b
    rw [List.foldlM_cons, hb']
    exact ih (fun a ha => h a (List.mem_cons_of_mem _ ha)) b'

/-- A list of values exists where each of its elements has one. -/
theorem mapM_exists {α β : Type} {f : α → Option β} {l : List α} (h : ∀ a ∈ l, ∃ b, f a = some b) :
    ∃ r, l.mapM f = some r := by
  induction l with
  | nil => exact ⟨[], rfl⟩
  | cons a l ih =>
    obtain ⟨b, hb⟩ := h a List.mem_cons_self
    obtain ⟨r, hr⟩ := ih fun a ha => h a (List.mem_cons_of_mem _ ha)
    exact ⟨b :: r, by simp [List.mapM_cons, hb, hr]⟩

/-- Lists of values agree where their elements do. -/
theorem mapM_congr_mem {α β : Type} {f g : α → Option β} {l : List α} (h : ∀ a ∈ l, f a = g a) : l.mapM f = l.mapM g :=
  Option.ext fun r => by rw [mapM_eq_some, mapM_eq_some, List.map_congr_left h]

/-- The conjunction of bytes: the bits that every one of them keeps. -/
def allKept (ws : List Byte) : Byte := ws.foldr (· &&& ·) (BitVec.allOnes 8)

/-- It does not depend on their order. -/
theorem allKept_perm {ws ws' : List Byte} (h : ws.Perm ws') : allKept ws = allKept ws' := h.foldr_op_eq

/-- A bit is cleared where one of the bytes clears it. -/
theorem allKept_getLsbD {ws : List Byte} {j : Nat} (hj : j < 8) :
    (allKept ws).getLsbD j = false ↔ ∃ w ∈ ws, w.getLsbD j = false := by
  induction ws with
  | nil =>
    have hall : (allKept []).getLsbD j = true := BitVec.getLsbD_allOnes.trans (decide_eq_true hj)
    simp [hall]
  | cons w ws ih =>
    have hcons : allKept (w :: ws) = w &&& allKept ws := rfl
    rw [hcons, BitVec.getLsbD_and, Bool.and_eq_false_iff, ih, List.exists_mem_cons_iff]

/-- A fold whose steps each clear fixed bits clears them all. -/
theorem foldlM_keeps {α : Type} {f : Byte → α → Option Byte} {kept : α → Byte} {l : List α}
    (h : ∀ a ∈ l, ∀ wb b, f wb a = some b → b = wb &&& kept a) {wb b : Byte} (hb : l.foldlM f wb = some b) :
    b = wb &&& allKept (l.map kept) := by
  induction l generalizing wb with
  | nil =>
    obtain rfl : wb = b := Option.some.inj hb
    exact BitVec.and_allOnes.symm
  | cons a l ih =>
    rw [List.foldlM_cons, Option.bind_eq_bind, Option.bind_eq_some_iff] at hb
    obtain ⟨w, hw, hb⟩ := hb
    obtain rfl := h a List.mem_cons_self wb w hw
    rw [ih (fun a ha => h a (List.mem_cons_of_mem _ ha)) hb, BitVec.and_assoc]
    rfl

/-! ### One evaluation of the pass (41 R100) -/

/-- The pixel of bit position `bi` in byte column `xg` of row `y`, with the working byte. -/
def lanePixel (o : BitVec 2) (y xg bi : Nat) (wb : Byte) : Pixel := { wb := wb, x := 8 * (xg : Int) + bi, y := y, o := o }

theorem lanePixel_onDevice {p : Params} {y xg bi : Nat} (hx : xg < p.width / 8) (hb : bi < 8) (hy : y < p.height)
    (o : BitVec 2) (wb : Byte) : onDevice p (lanePixel o y xg bi wb).x (lanePixel o y xg bi wb).y = true :=
  onDevice_lane hx hb hy

theorem processByte_eq_some {p : Params} {m : List Host.Cell} {c : Instr} {q : Pixel} {b : Byte} :
    processByte p m c q = some b ↔ processCmd p m c q = .byte b := by
  unfold processByte
  cases processCmd p m c q <;> simp

/-- A stored command has a value at a pixel where its strings are in their fonts: a clear-only one everywhere, a `RAW` on the
device. -/
theorem processByte_exists {m : List Host.Cell} {c : Instr} (p : Params) (q : Pixel) (hd : c.isDrawing = true)
    (hw : c.wf = true) (hf : CommandInFont m c) (hat : c.isClearOnly = true ∨ onDevice p q.x q.y = true) :
    ∃ b, processByte p m c q = some b := by
  simp only [processByte_eq_some]
  by_cases hc : c.isClearOnly = true
  · exact processCmd_clearOnly_of_inFont p q hc hw hf
  · obtain ⟨buf, rfl⟩ := (isClearOnly_or_raw hd).resolve_left hc
    exact ⟨_, processCmd_raw_onDevice (hat.resolve_left hc) m buf⟩

/-- What a clear-only command keeps of the working byte at bit position `bi`: every bit but the pixel's where it owns the
pixel. -/
def laneKept (p : Params) (m : List Host.Cell) (o : BitVec 2) (y xg : Nat) (c : Instr) (bi : Nat) : Byte :=
  keptBits (decide (memberCmd p m c (lanePixel o y xg bi 0xFF) = some true)) (8 * (xg : Int) + bi)

theorem processByte_lane_keeps {p : Params} {m : List Host.Cell} {o : BitVec 2} {y xg bi : Nat} {c : Instr} {wb b : Byte}
    (hc : c.isClearOnly = true) (h : processByte p m c (lanePixel o y xg bi wb) = some b) :
    b = wb &&& laneKept p m o y xg c bi := by
  rw [processByte_eq_some] at h
  obtain ⟨member, hm, hk⟩ := processCmd_keeps hc h
  have hmember : memberCmd p m c (lanePixel o y xg bi 0xFF) = some member :=
    (memberCmd_wb p m c (lanePixel o y xg bi wb) 0xFF).trans hm
  have hb : wb &&& keptBits member (8 * (xg : Int) + bi) = b := Eval.byte.inj ((hk wb).symm.trans h)
  rw [laneKept, hmember, ← hb]
  cases member <;> rfl

/-- The one column that is cleared, and when. -/
theorem keptBits_getLsbD_eq_false {member : Bool} {x : Int} {k : Nat} (hk : k < 8) :
    (keptBits member x).getLsbD k = false ↔ member = true ∧ (k : Int) = 7 - x % 8 := by
  cases member with
  | false => simp [keptBits, hk, -BitVec.reduceAllOnes]
  | true =>
    rw [keptBits, if_pos rfl, BitVec.getLsbD_not, mask_getLsbD]
    simp [hk]

/-- A lane's bit is cleared exactly where the command owns its pixel. -/
theorem laneKept_getLsbD (p : Params) (m : List Host.Cell) (o : BitVec 2) (y xg : Nat) (c : Instr) {bi k : Nat} (hb : bi < 8)
    (hk : k < 8) : (laneKept p m o y xg c bi).getLsbD (7 - k) = false ↔
      bi = k ∧ memberCmd p m c (lanePixel o y xg bi 0xFF) = some true := by
  have hcolumn : ((7 - k : Nat) : Int) = 7 - (8 * (xg : Int) + bi) % 8 ↔ bi = k := by omega
  rw [laneKept, keptBits_getLsbD_eq_false (by omega), hcolumn, decide_eq_true_eq, and_comm]

/-! ### The two inner loops (44 R172, R179) -/

/-- What a clear-only command keeps of a working byte over all its lanes. -/
def commandKept (p : Params) (m : List Host.Cell) (o : BitVec 2) (y xg : Nat) (c : Instr) : Byte :=
  allKept ((List.range 8).map (laneKept p m o y xg c))

/-- A column's bit is cleared exactly where the command owns its pixel. -/
theorem commandKept_getLsbD (p : Params) (m : List Host.Cell) (o : BitVec 2) (y xg : Nat) (c : Instr) {k : Nat} (hk : k < 8) :
    (commandKept p m o y xg c).getLsbD (7 - k) = false ↔ memberCmd p m c (lanePixel o y xg k 0xFF) = some true := by
  rw [commandKept, allKept_getLsbD (by omega)]
  simp only [List.mem_map, exists_exists_and_eq_and]
  constructor
  · rintro ⟨bi, hbi, hclear⟩
    obtain ⟨rfl, hm⟩ := (laneKept_getLsbD p m o y xg c (List.mem_range.mp hbi) hk).mp hclear
    exact hm
  · exact fun hm => ⟨k, List.mem_range.mpr hk, (laneKept_getLsbD p m o y xg c hk hk).mpr ⟨rfl, hm⟩⟩

section
variable {p : Params} {m : List Host.Cell} {o : BitVec 2} {y xg : Nat}

theorem foldLanes_keeps {c : Instr} {lanes : List Nat} {wb b : Byte} (hc : c.isClearOnly = true)
    (h : foldLanes p m o y xg c lanes wb = some b) : b = wb &&& allKept (lanes.map (laneKept p m o y xg c)) :=
  foldlM_keeps (fun _ _ _ _ hb => processByte_lane_keeps hc hb) h

theorem foldCommands_keeps {cmds : List Instr} {wb b : Byte} (hc : ∀ c ∈ cmds, c.isClearOnly = true)
    (h : foldCommands p m o y xg cmds wb = some b) : b = wb &&& allKept (cmds.map (commandKept p m o y xg)) :=
  foldlM_keeps (fun c hmem _ _ hb => foldLanes_keeps (hc c hmem) hb) h

theorem foldLanes_exists {c : Instr} {lanes : List Nat} (hd : c.isDrawing = true) (hw : c.wf = true)
    (hf : CommandInFont m c)
    (hat : c.isClearOnly = true ∨ (xg < p.width / 8 ∧ y < p.height ∧ ∀ bi ∈ lanes, bi < 8)) (wb : Byte) :
    ∃ b, foldLanes p m o y xg c lanes wb = some b :=
  foldlM_exists (fun bi hbi b => processByte_exists p (lanePixel o y xg bi b) hd hw hf
    (hat.imp id fun ⟨hx, hy, hl⟩ => lanePixel_onDevice hx (hl bi hbi) hy o b)) wb

end

/-- Settles O50: in any order the lanes clear the conjunction of what each clears. -/
theorem lanesAreIndependent : Obligations.LanesAreIndependent := by
  intro p m o y xg c lanes lanes' wb hc hwf hf hperm
  have hd := isDrawing_of_isClearOnly hc
  have hw := (Instr.wf_iff c).mpr hwf
  obtain ⟨b, hb⟩ := foldLanes_exists (p := p) (o := o) (y := y) (xg := xg) (lanes := lanes) hd hw hf (.inl hc) wb
  obtain ⟨b', hb'⟩ := foldLanes_exists (p := p) (o := o) (y := y) (xg := xg) (lanes := lanes') hd hw hf (.inl hc) wb
  rw [hb, hb', foldLanes_keeps hc hb, foldLanes_keeps hc hb', allKept_perm (hperm.map _)]

/-! ### The bytes of a pass -/

/-- Every position of a pass is on the device. -/
theorem mem_positions {p : Params} {at_ : Nat × Nat} (h : at_ ∈ positions p) : at_.2 < p.width / 8 ∧ at_.1 < p.height := by
  rw [positions_eq_map] at h
  obtain ⟨k, hk, rfl⟩ := List.mem_map.mp h
  exact position_onDevice (List.mem_range.mp hk)

/-- The byte of a position exists where every command is stored and every string is in its font. -/
theorem passByte_exists {p : Params} {m : List Host.Cell} {cmds : List Instr} {y xg : Nat} (o : BitVec 2)
    (h : ∀ c ∈ cmds, c.isDrawing = true ∧ c.wf = true ∧ CommandInFont m c) (hx : xg < p.width / 8) (hy : y < p.height) :
    ∃ b, passByte p m o cmds y xg = some b :=
  foldlM_exists (fun c hc wb =>
    have ⟨hd, hw, hf⟩ := h c hc
    foldLanes_exists hd hw hf (.inr ⟨hx, hy, fun _ => List.mem_range.mp⟩) wb) 0xFF

/-- The pass has a value where each of its positions has one. -/
theorem passBytes_exists {p : Params} {m : List Host.Cell} {cmds : List Instr} (o : BitVec 2)
    (h : ∀ c ∈ cmds, c.isDrawing = true ∧ c.wf = true ∧ CommandInFont m c) : ∃ bs, passBytes p m o cmds = some bs :=
  mapM_exists fun _ hat =>
    have ⟨hx, hy⟩ := mem_positions hat
    passByte_exists o h hx hy

/-- One byte for each position (44 R174). -/
theorem passBytes_length {p : Params} {m : List Host.Cell} {o : BitVec 2} {cmds : List Instr} {bs : List Byte}
    (h : passBytes p m o cmds = some bs) : bs.length = p.width / 8 * p.height := by
  have hlen := congrArg List.length ((mapM_eq_some _ _ _).mp h)
  rw [List.length_map, List.length_map, positions_length] at hlen
  exact hlen.symm

/-- Settles O45: the position's number in the list of positions is its byte's number in the pass. -/
theorem emissionOrder : Obligations.EmissionOrder := by
  intro p m o cmds bs hbs
  refine ⟨passBytes_length hbs, fun y xg hy hx => ?_⟩
  obtain ⟨b, hb⟩ := passByte_of_passBytes hbs hx hy
  have hat := congrArg (·[y * (p.width / 8) + xg]?) ((mapM_eq_some _ _ _).mp hbs)
  simp only [List.getElem?_map, positions_getElem hx hy, Option.map_some, hb] at hat
  obtain ⟨b', hb', he⟩ := Option.map_eq_some_iff.mp hat.symm
  exact ⟨b, hb, hb'.trans he⟩

/-- Settles O47: every position's byte is the conjunction of what each command keeps of it. -/
theorem orderOfClearOnlyCommands : Obligations.OrderOfClearOnlyCommands := by
  intro p m o cmds cmds' h hperm
  have hclear : ∀ c ∈ cmds, c.isClearOnly = true := fun c hc => (h c hc).1
  have hstored : ∀ c ∈ cmds, c.isDrawing = true ∧ c.wf = true ∧ CommandInFont m c := fun c hc =>
    have ⟨hco, hwf, hf⟩ := h c hc
    ⟨isDrawing_of_isClearOnly hco, c.wf_iff.mpr hwf, hf⟩
  have hstored' : ∀ c ∈ cmds', c.isDrawing = true ∧ c.wf = true ∧ CommandInFont m c := fun c hc =>
    hstored c (hperm.mem_iff.mpr hc)
  refine mapM_congr_mem fun at_ hat => ?_
  obtain ⟨hx, hy⟩ := mem_positions hat
  obtain ⟨b, hb⟩ := passByte_exists o hstored hx hy
  obtain ⟨b', hb'⟩ := passByte_exists o hstored' hx hy
  rw [hb, hb', foldCommands_keeps hclear hb, foldCommands_keeps (fun c hc => hclear c (hperm.mem_iff.mpr hc)) hb',
    allKept_perm (hperm.map _)]

/-! ### The closed form of a byte (44 R175) -/

/-- The buffer up to its last `RAW`, and the clear-only commands after it. -/
theorem dropWhile_append_afterLastRaw (cmds : List Instr) :
    (cmds.reverse.dropWhile Instr.isClearOnly).reverse ++ afterLastRaw cmds = cmds := by
  rw [afterLastRaw, ← List.reverse_append, List.takeWhile_append_dropWhile, List.reverse_reverse]

theorem isClearOnly_of_mem_afterLastRaw {cmds : List Instr} {c : Instr} (h : c ∈ afterLastRaw cmds) :
    c.isClearOnly = true :=
  List.mem_takeWhile_imp (List.mem_reverse.mp h)

/-- The commands up to the last `RAW` leave the base byte. -/
theorem passByte_upToLastRaw {p : Params} {m : List Host.Cell} {o : BitVec 2} {cmds : List Instr} {y xg : Nat} {b : Byte}
    (hd : ∀ c ∈ cmds, c.isDrawing = true) (hx : xg < p.width / 8) (hy : y < p.height)
    (h : passByte p m o (cmds.reverse.dropWhile Instr.isClearOnly).reverse y xg = some b) :
    b = baseByte p m cmds y xg := by
  unfold baseByte
  cases hdrop : cmds.reverse.dropWhile Instr.isClearOnly with
  | nil =>
    rw [hdrop] at h
    exact (Option.some.inj h).symm
  | cons c rest =>
    have hraw : ¬ c.isClearOnly = true := by
      have hhead := List.head?_dropWhile_not Instr.isClearOnly cmds.reverse
      rw [hdrop] at hhead
      exact Bool.not_eq_true _ ▸ hhead
    have hmem : c ∈ cmds := List.mem_reverse.mp
      ((List.dropWhile_sublist _).mem (hdrop ▸ List.mem_cons_self))
    obtain ⟨buf, rfl⟩ := (isClearOnly_or_raw (hd c hmem)).resolve_left hraw
    rw [hdrop, List.reverse_cons] at h
    obtain ⟨b₀, hb₀, -⟩ := Option.bind_eq_some_iff.mp (List.foldlM_append.symm.trans h)
    have hlane := rawByte_lane p m buf (xg := xg) (bi := 0) (y := y) (by decide)
    rw [Int.natCast_zero, add_zero] at hlane
    exact (Option.some.inj ((passByte_append_raw hx hy hb₀ buf).symm.trans h)).symm.trans hlane.symm

/-- Settles O46: up to the last `RAW` the byte is the base byte, and after it each command clears the pixels it owns. -/
theorem outputByteClosedForm : Obligations.OutputByteClosedForm := by
  intro p m o cmds y xg b hd hy hx hb k hk
  rw [← dropWhile_append_afterLastRaw cmds] at hb
  obtain ⟨b₀, hb₀, hb⟩ := Option.bind_eq_some_iff.mp (List.foldlM_append.symm.trans hb)
  obtain rfl := passByte_upToLastRaw hd hx hy hb₀
  have hbits := foldCommands_keeps (fun _ => isClearOnly_of_mem_afterLastRaw) hb
  rw [hbits, BitVec.getLsbD_and, Bool.and_eq_false_iff, allKept_getLsbD (by omega)]
  simp only [List.mem_map, exists_exists_and_eq_and, commandKept_getLsbD p m o y xg _ hk]
  rfl

end Sys2Proof.Machine
end

section
/-! PROOFS. The machine's render pass (spec/44_render_pipeline.md R170 to R177): RENDER starts it, and its steps compute the loop
nest. -/
namespace Sys2Proof.Machine

/-- Settles O41: what `startPass` writes. -/
theorem renderStartsThePass : Obligations.RenderStartsThePass := fun s =>
  ⟨startPass s, rfl, rfl, rfl, rfl, rfl, rfl, rfl, rfl, rfl⟩

/-! ### The buffer (43 R158) -/

/-- A buffer that decodes does so slot by slot. -/
theorem bufferCommands_slots {s : State} {cmds : List Instr} (h : bufferCommands s = some cmds) :
    cmds.length = s.size.toNat ∧ ∀ i c, cmds[i]? = some c → decodeSlot s i = .ok c := by
  have hmap := (mapM_eq_some _ _ _).mp h
  have hlen : cmds.length = s.size.toNat := by simpa using (congrArg List.length hmap).symm
  refine ⟨hlen, fun i c hc => ?_⟩
  have hi : i < s.size.toNat := hlen ▸ (List.getElem?_eq_some_iff.mp hc).1
  have hat := congrArg (·[i]?) hmap
  simp only [List.getElem?_map, hc, List.getElem?_range hi, Option.map_some, Option.some.injEq] at hat
  cases hd : decodeSlot s i with
  | ok c' => rw [hd] at hat; cases hat; rfl
  | error e => rw [hd] at hat; cases hat

theorem bufferCommands_exists {s : State} (h : SlotsDecode s) : ∃ cmds, bufferCommands s = some cmds :=
  mapM_exists fun i hi =>
    have ⟨⟨c, hc⟩, _⟩ := h i (List.mem_range.mp hi)
    ⟨c, by rw [hc]; rfl⟩

/-- The commands of the buffer are those of its valid slots. -/
theorem bufferCommands_mem {s : State} {cmds : List Instr} (h : bufferCommands s = some cmds) {c : Instr} (hc : c ∈ cmds) :
    ∃ i < s.size.toNat, decodeSlot s i = .ok c := by
  obtain ⟨hlen, hslot⟩ := bufferCommands_slots h
  obtain ⟨i, hi⟩ := List.mem_iff_getElem?.mp hc
  exact ⟨i, hlen ▸ (List.getElem?_eq_some_iff.mp hi).1, hslot i c hi⟩

/-- Settles O44: every stored command has a value at every position. -/
theorem renderCannotFail : Obligations.RenderCannotFail := by
  intro s hinv hfont
  obtain ⟨cmds, hcmds⟩ := bufferCommands_exists hinv.slots_decode
  have hstored : ∀ c ∈ cmds, c.isDrawing = true ∧ c.wf = true ∧ CommandInFont s.xmem c := fun c hc =>
    have ⟨i, hi, hd⟩ := bufferCommands_mem hcmds hc
    ⟨decodeSlot_isDrawing hd, decodeSlot_wf hd, hfont i hi c hd⟩
  obtain ⟨bs, hbs⟩ := passBytes_exists s.orient hstored
  exact ⟨bs, by rw [renderBytes, hcmds, Option.bind_some, hbs], passBytes_length hbs⟩

/-- Settles O49: with nothing to fold every position keeps the blank byte. -/
theorem emptyBufferRendersBlank : Obligations.EmptyBufferRendersBlank := by
  intro s hz
  have hempty : bufferCommands s = some [] := by rw [bufferCommands, hz]; rfl
  rw [renderBytes, hempty, Option.bind_some, passBytes, mapM_eq_some, List.map_replicate, ← positions_length]
  exact List.map_const' ..

/-! ### Runs that fold -/

/-- What a run ends in whose fold has a value or meets a character outside its font (log entry 9). -/
def passOutcome : Option State → Host.Outcome State Fault Refusal
  | some t => .next t
  | none => .fault .glyphOutsideFont

/-- A run of two parts, the second going on from the first one's value. -/
theorem core_run_bind {α : Type} {a b : Nat} {s : State} {r : Option α} {g : α → State} {f : α → Option State}
    (ha : Sys2Proof.core.run a s = passOutcome (r.map g)) (hb : ∀ x, Sys2Proof.core.run b (g x) = passOutcome (f x)) :
    Sys2Proof.core.run (a + b) s = passOutcome (r.bind f) := by
  rw [core_run_add, ha]
  cases r with
  | none => rfl
  | some x => exact hb x

/-- A loop of the machine is a fold: `σ n b` is its state before iteration `n` with the value `b`, and an iteration takes `cost`
steps. -/
theorem core_run_foldlM {α β : Type} {f : β → α → Option β} {cost : Nat} {l : List α} {σ : Nat → β → State}
    (h : ∀ n a, l[n]? = some a → ∀ b, Sys2Proof.core.run cost (σ n b) = passOutcome ((f b a).map (σ (n + 1)))) (b : β) :
    Sys2Proof.core.run (l.length * cost) (σ 0 b) = passOutcome ((l.foldlM f b).map (σ l.length)) := by
  induction l generalizing σ b with
  | nil => rw [List.length_nil, Nat.zero_mul]; rfl
  | cons a l ih =>
    have hrest := fun b' => ih (σ := fun n => σ (n + 1)) (fun n a' ha' => h (n + 1) a' ha') b'
    rw [List.length_cons, Nat.add_mul, Nat.one_mul, Nat.add_comm, List.foldlM_cons, Option.bind_eq_bind, Option.map_bind]
    exact core_run_bind (h 0 a rfl b) hrest

/-! ### The states of a pass -/

/-- The state in the pass of `s`, at row `y` and byte column `xg`, after `n` evaluations there: `n` counts `BI` inside `CI`
(10 R14). -/
def passState (s : State) (y xg n : Nat) (wb : Byte) (out : List Byte) : State :=
  { s with busy := true, orientAct := s.orient, y := y, xg := xg, ci := n / 8, bi := n % 8, wb := wb, out := out }

/-- The state after the pass of `s`. -/
def passEnd (s : State) (out : List Byte) : State := endPass { s with orientAct := s.orient, out := out }

/-- The state at the start of byte position number `k`, or after the last one. -/
def positionState (s : State) (k : Nat) (out : List Byte) : State :=
  if k < s.params.width / 8 * s.params.height then
    passState s (k / (s.params.width / 8)) (k % (s.params.width / 8)) 0 0xFF out
  else passEnd s out

/-- A pass starts at position 0: the device has a byte column and a row (00 R3). -/
theorem startPass_eq_positionState (s : State) : startPass s = positionState s 0 s.out := by
  obtain ⟨-, hw, -, hh, -⟩ := s.params.legal
  have hpos : 0 < s.params.width / 8 * s.params.height := Nat.mul_pos (by omega) hh
  rw [positionState, if_pos hpos, Nat.zero_div, Nat.zero_mod]
  rfl

theorem positionState_at {s : State} {y xg : Nat} (hx : xg < s.params.width / 8) (hy : y < s.params.height)
    (out : List Byte) : positionState s (y * (s.params.width / 8) + xg) out = passState s y xg 0 0xFF out := by
  have hpos := Nat.zero_lt_of_lt hx
  obtain ⟨hrow, hcol⟩ := (Nat.div_mod_unique (a := y * (s.params.width / 8) + xg) (d := y) (c := xg) hpos).mpr
    ⟨by rw [Nat.mul_comm, Nat.add_comm], hx⟩
  have hlt : y * (s.params.width / 8) + xg < s.params.width / 8 * s.params.height := by
    rw [Nat.mul_comm _ s.params.height, ← Nat.div_lt_iff_lt_mul hpos, hrow]
    exact hy
  rw [positionState, if_pos hlt, hrow, hcol]

theorem positionState_end (s : State) (out : List Byte) :
    positionState s (s.params.width / 8 * s.params.height) out = passEnd s out := if_neg (Nat.lt_irrefl _)

/-- The sweep's advance is one evaluation more. -/
theorem advanceSweep_passState (s : State) (y xg n : Nat) (wb : Byte) (out : List Byte) :
    advanceSweep (passState s y xg n wb out) = passState s y xg (n + 1) wb out := by
  have hlane : (n % 8 < 7 ∧ (n + 1) / 8 = n / 8 ∧ (n + 1) % 8 = n % 8 + 1) ∨
      (¬ n % 8 < 7 ∧ (n + 1) / 8 = n / 8 + 1 ∧ (n + 1) % 8 = 0) := by omega
  obtain ⟨hlt, hci, hbi⟩ | ⟨hlt, hci, hbi⟩ := hlane
  · rw [passState, passState, hci, hbi]
    exact if_pos hlt
  · rw [passState, passState, hci, hbi]
    exact if_neg hlt

/-- After an emission the pass stands at the next position in row-major order, or has ended (44 R173). -/
theorem emitByte_passState {s : State} {y xg : Nat} (hx : xg < s.params.width / 8) (hy : y < s.params.height) (n : Nat)
    (wb : Byte) (out : List Byte) : emitByte (passState s y xg n wb out) =
      positionState s (y * (s.params.width / 8) + xg + 1) (out ++ [wb]) := by
  by_cases hcol : xg + 1 < s.params.width / 8
  · rw [Nat.add_assoc, positionState_at hcol hy]
    exact emitByte_nextColumn (s := passState s y xg n wb out) hcol
  · have hnext : y * (s.params.width / 8) + xg + 1 = (y + 1) * (s.params.width / 8) := by rw [Nat.add_mul]; omega
    rw [hnext]
    by_cases hrow : y + 1 < s.params.height
    · have hfirst := positionState_at (s := s) (xg := 0) (Nat.zero_lt_of_lt hx) hrow (out ++ [wb])
      rw [Nat.add_zero] at hfirst
      rw [hfirst]
      exact emitByte_nextRow (s := passState s y xg n wb out) (not_lt.mp hcol) hrow
    · have hlast : y + 1 = s.params.height := le_antisymm hy (not_lt.mp hrow)
      rw [hlast, Nat.mul_comm, positionState_end]
      exact emitByte_lastPosition (s := passState s y xg n wb out) (not_lt.mp hcol) (not_lt.mp hrow)

/-- A position's number in the list of positions (44 R173). -/
theorem positions_number {p : Params} {k y xg : Nat} (h : (positions p)[k]? = some (y, xg)) :
    xg < p.width / 8 ∧ y < p.height ∧ k = y * (p.width / 8) + xg := by
  obtain ⟨hk, hat⟩ := List.getElem?_eq_some_iff.mp h
  rw [positions_length] at hk
  simp only [positions_eq_map, List.getElem_map, List.getElem_range, Prod.mk.injEq] at hat
  obtain ⟨rfl, rfl⟩ := hat
  obtain ⟨hx, hy⟩ := position_onDevice hk
  exact ⟨hx, hy, (Nat.div_add_mod' ..).symm⟩

/-! ### The steps of a pass -/

/-- On the device a drawing command's evaluation is a byte or a bad glyph (93 U2, U4). -/
theorem processCmd_onDevice_cases {p : Params} {q : Pixel} {c : Instr} (hd : c.isDrawing = true) (hw : c.wf = true)
    (hon : onDevice p q.x q.y = true) (m : List Host.Cell) :
    (∃ b, processCmd p m c q = .byte b) ∨ processCmd p m c q = .badGlyph := by
  obtain hc | ⟨buf, rfl⟩ := isClearOnly_or_raw hd
  · rw [processCmd_clearOnly hc hw]
    cases memberCmd p m c q with
    | none => exact .inr rfl
    | some member => exact .inl ⟨_, rfl⟩
  · exact .inl ⟨_, processCmd_raw_onDevice hon m buf⟩

section
variable {s : State} {y xg : Nat} (henv : s.env = []) (hx : xg < s.params.width / 8) (hy : y < s.params.height)
include henv hx hy

/-- One evaluation: its byte goes into `WB` and the count of evaluations goes up; it has none only at a character outside its
font. -/
theorem step_passState_evaluation {ci bi : Nat} {c : Instr} (hci : ci < s.size.toNat) (hd : decodeSlot s ci = .ok c)
    (hb : bi < 8) (wb : Byte) (out : List Byte) :
    step (passState s y xg (8 * ci + bi) wb out) =
      passOutcome ((processByte s.params s.xmem c (lanePixel s.orient y xg bi wb)).map
        fun b => passState s y xg (8 * ci + bi + 1) b out) := by
  have hcount : (8 * ci + bi) / 8 = ci ∧ (8 * ci + bi) % 8 = bi := by omega
  obtain ⟨hdiv, hmod⟩ := hcount
  have hpixel : sweepPixel (passState s y xg (8 * ci + bi) wb out) = lanePixel s.orient y xg bi wb := by
    rw [sweepPixel, passState, hmod]
    rfl
  have hdraw := decodeSlot_isDrawing hd
  have hstep : step (passState s y xg (8 * ci + bi) wb out) = thenAdvance (intoWb
      (processCmd s.params s.xmem c (lanePixel s.orient y xg bi wb)) (passState s y xg (8 * ci + bi) wb out)) := by
    rw [← hdiv] at hci hd
    rw [step_evaluation (s := passState s y xg (8 * ci + bi) wb out) rfl (.inl ⟨henv, rfl⟩) hci hd, exec_drawing hdraw,
      hpixel]
    rfl
  rw [hstep, processByte]
  rcases processCmd_onDevice_cases hdraw (decodeSlot_wf hd) (lanePixel_onDevice hx hb hy s.orient wb) s.xmem with
    ⟨b, he⟩ | he <;> rw [he]
  · exact congrArg Host.Outcome.next (advanceSweep_passState s y xg (8 * ci + bi) b out)
  · rfl

/-- One command: its 8 evaluations fold its lanes into `WB`. -/
theorem core_run_command {ci : Nat} {c : Instr} (hci : ci < s.size.toNat) (hd : decodeSlot s ci = .ok c) (wb : Byte)
    (out : List Byte) :
    Sys2Proof.core.run 8 (passState s y xg (8 * ci) wb out) =
      passOutcome ((foldLanes s.params s.xmem s.orient y xg c (List.range 8) wb).map
        fun b => passState s y xg (8 * (ci + 1)) b out) := by
  refine core_run_foldlM (l := List.range 8) (cost := 1) (σ := fun n b => passState s y xg (8 * ci + n) b out)
    (fun n bi hn b => ?_) wb
  obtain ⟨hlt, hbi⟩ := List.getElem?_eq_some_iff.mp hn
  rw [List.length_range] at hlt
  obtain rfl : n = bi := (List.getElem_range _).symm.trans hbi
  exact (core_run_one _).trans (step_passState_evaluation henv hx hy hci hd hlt b out)

/-- One byte position: the commands are folded, and the byte is emitted. -/
theorem core_run_position {cmds : List Instr} (hcmds : bufferCommands s = some cmds) (out : List Byte) :
    Sys2Proof.core.run (8 * s.size.toNat + 1) (passState s y xg 0 0xFF out) =
      passOutcome ((passByte s.params s.xmem s.orient cmds y xg).map
        fun b => positionState s (y * (s.params.width / 8) + xg + 1) (out ++ [b])) := by
  obtain ⟨hlen, hslot⟩ := bufferCommands_slots hcmds
  have hfold := core_run_foldlM (cost := 8) (l := cmds) (σ := fun n b => passState s y xg (8 * n) b out)
    (fun ci c hc b => core_run_command henv hx hy (hlen ▸ (List.getElem?_eq_some_iff.mp hc).1) (hslot ci c hc) b out) 0xFF
  rw [hlen, Nat.mul_comm] at hfold
  rw [Option.map_eq_bind]
  refine core_run_bind hfold fun b => (core_run_one _).trans ?_
  have hdone : s.size.toNat ≤ 8 * s.size.toNat / 8 := by omega
  rw [step_emission (s := passState s y xg (8 * s.size.toNat) b out) rfl (.inl ⟨henv, rfl⟩) hdone,
    emitByte_passState hx hy]
  rfl

end

/-- Values appended one after another are the list of them. -/
theorem foldlM_append_value {α β : Type} (f : α → Option β) (l : List α) (out : List β) :
    l.foldlM (fun out a => (f a).map fun b => out ++ [b]) out = (l.mapM f).map (out ++ ·) := by
  induction l generalizing out with
  | nil => simp
  | cons a l ih =>
    rw [List.foldlM_cons, List.mapM_cons]
    cases hfa : f a with
    | none => rfl
    | some b => simpa [Function.comp_def, Option.map_bind, Option.map_eq_bind (x := l.mapM f)] using ih (out ++ [b])

/-- The whole pass: as many steps as it has evaluations and emissions give the bytes of the loop nest (44 R172, R174). -/
theorem core_run_pass {s : State} (h : SlotsDecode s) (henv : s.env = []) :
    Sys2Proof.core.run (passSteps s) (startPass s) =
      passOutcome ((renderBytes s).map fun bs => passEnd s (s.out ++ bs)) := by
  obtain ⟨cmds, hcmds⟩ := bufferCommands_exists h
  have hposition : ∀ k at_, (positions s.params)[k]? = some at_ → ∀ out,
      Sys2Proof.core.run (8 * s.size.toNat + 1) (positionState s k out) =
        passOutcome (((passByte s.params s.xmem s.orient cmds at_.1 at_.2).map fun b => out ++ [b]).map
          (positionState s (k + 1))) := by
    rintro k ⟨y, xg⟩ hk out
    obtain ⟨hx, hy, rfl⟩ := positions_number hk
    rw [positionState_at hx hy, Option.map_map]
    exact core_run_position henv hx hy hcmds out
  have hpositions := core_run_foldlM hposition s.out
  rw [foldlM_append_value, positions_length, Option.map_map] at hpositions
  rw [startPass_eq_positionState, renderBytes, hcmds, Option.bind_some]
  refine hpositions.trans (congrArg (fun f => passOutcome (Option.map f _)) (funext fun bs => ?_))
  exact positionState_end s (s.out ++ bs)

/-! ### The obligations -/

/-- Settles O43: the run of the whole pass, its end read off field by field. -/
theorem renderPassIsTheLoopNest : Obligations.RenderPassIsTheLoopNest := by
  intro s hinv hbusy henv
  refine ⟨startPass s, rfl, ?_⟩
  have hrun := core_run_pass hinv.slots_decode henv
  cases hbytes : renderBytes s with
  | none =>
    rw [hbytes] at hrun
    exact hrun
  | some bs =>
    rw [hbytes] at hrun
    refine ⟨passEnd s (s.out ++ bs), hrun, rfl, rfl, ?_⟩
    rw [passEnd, endPass, ← hbusy]

/-- An evaluation depends on the device's width and height alone, not on the capacity or the slot size. -/
theorem processCmd_congr_params {p p' : Params} (hw : p.width = p'.width) (hh : p.height = p'.height) :
    processCmd p = processCmd p' := by
  obtain ⟨w, h, n, k, hl⟩ := p
  obtain ⟨w', h', n', k', hl'⟩ := p'
  obtain rfl : w = w' := hw
  obtain rfl : h = h' := hh
  funext m c q
  cases c <;> rfl

/-- So do the bytes of a pass. -/
theorem passBytes_congr_params {p p' : Params} (hw : p.width = p'.width) (hh : p.height = p'.height) :
    passBytes p = passBytes p' := by
  have hbyte : processByte p = processByte p' := by
    unfold processByte
    rw [processCmd_congr_params hw hh]
  have hpos : positions p = positions p' := by
    unfold positions rowBytes
    rw [hw, hh]
  unfold passBytes passByte foldCommands foldLanes
  rw [hbyte, hpos]

/-- The loop nest is a function of what 44 R176 lists. -/
theorem renderBytes_congr {s s' : State} (hw : s.params.width = s'.params.width) (hh : s.params.height = s'.params.height)
    (ho : s.orient = s'.orient) (hsize : s.size = s'.size) (hslots : ∀ i < s.size.toNat, decodeSlot s i = decodeSlot s' i)
    (hm : s.xmem = s'.xmem) : renderBytes s = renderBytes s' := by
  have hbuffer : bufferCommands s = bufferCommands s' := by
    unfold bufferCommands
    rw [← hsize]
    exact mapM_congr_mem fun i hi => congrArg Except.toOption (hslots i (List.mem_range.mp hi))
  unfold renderBytes
  rw [hbuffer, passBytes_congr_params hw hh, ho, hm]

/-- Settles O51: both runs take as many steps and end in the same loop nest's bytes. -/
theorem passDependsOnlyOnItsInputs : Obligations.PassDependsOnlyOnItsInputs := by
  intro s s' hinv hinv' _ _ henv henv' hw hh ho hsize hslots hm
  have hrun := core_run_pass hinv.slots_decode henv
  have hrun' := core_run_pass hinv'.slots_decode henv'
  have hsteps : passSteps s' = passSteps s := by simp only [passSteps, rowBytes_def, hw, hh, hsize]
  rw [hsteps, ← renderBytes_congr hw hh ho hsize hslots hm] at hrun'
  refine ⟨startPass s, startPass s', rfl, rfl, ?_⟩
  cases hbytes : renderBytes s with
  | none =>
    rw [hbytes] at hrun hrun'
    exact .inr ⟨hrun, hrun'⟩
  | some bs =>
    rw [hbytes] at hrun hrun'
    exact .inl ⟨_, _, bs, hrun, hrun', rfl, rfl, rfl, rfl⟩

end Sys2Proof.Machine
end

section
/-! PROOFS. The exceptions (spec/60_exceptions.md): the one exception the block raises, PUSH's rejection (R190, R192), and the
stops of a step, both broken contracts of HOST (R194, 93 U4, U5). -/
namespace Sys2Proof.Machine

/-! ### PUSH's rejection (60 R192) -/

/-- Settles O27: the branches of PUSH in their order, each excluded where the premises name another cause. -/
theorem pushRejects : Obligations.PushRejects := by
  intro s
  rcases execPush_cases s with ⟨⟨e, he⟩, hx⟩ | ⟨i, hi, hcases⟩
  · have hno : ¬ ∃ i, decodeImage s.stageTag s.stage.toList = .ok i := fun ⟨_, hi⟩ => nomatch he.symm.trans hi
    exact ⟨fun _ => hx, fun hi => absurd hi hno, fun hi => absurd hi hno⟩
  · refine ⟨fun ⟨_, he⟩ => (nomatch hi.symm.trans he), fun _ hbig => ?_, fun _ hfit hfull => ?_⟩
    · rcases hcases with ⟨-, hx⟩ | ⟨hfit, -⟩ | ⟨hfit, -⟩
      · exact hx
      · exact absurd hfit hbig.not_ge
      · exact absurd hfit hbig.not_ge
    · rcases hcases with ⟨hbig, -⟩ | ⟨-, -, hx⟩ | ⟨-, hfree, -⟩
      · exact absurd hfit hbig.not_ge
      · exact hx
      · exact absurd hfull hfree

/-! ### Where a step can stop (60 R194) -/

/-- An evaluation without a result is of a stored command whose string leaves its font (42 R139). -/
theorem not_commandInFont_of_badGlyph {s : State} {n : Nat} {c : Instr} {p : Params} {m : List Host.Cell} {q : Pixel}
    (hd : decodeSlot s n = .ok c) (hbad : processCmd p m c q = .badGlyph) : ¬ CommandInFont m c := by
  intro hf
  obtain hc | ⟨buf, rfl⟩ := isClearOnly_or_raw (decodeSlot_isDrawing hd)
  · obtain ⟨b, hb⟩ := processCmd_clearOnly_of_inFont p q hc (decodeSlot_wf hd) hf
    cases hbad.symm.trans hb
  · by_cases hon : onDevice p q.x q.y = true
    · cases hbad.symm.trans (processCmd_raw_onDevice hon m buf)
    · cases hbad.symm.trans (processCmd_raw_offDevice hon m buf)

/-- The sweep's evaluation of a stored command stops for its string alone. -/
theorem exec_stored_fault {s u : State} {n : Nat} {c : Instr} {f : Fault} (hd : decodeSlot s n = .ok c)
    (h : exec c u = .fault f) : f = .glyphOutsideFont ∧ ¬ CommandInFont u.xmem c := by
  rw [exec_drawing (decodeSlot_isDrawing hd)] at h
  obtain ⟨hbad, hf⟩ := intoWb_fault h
  exact ⟨hf, not_commandInFont_of_badGlyph hd hbad⟩

/-- PROCESS stops for the string of the valid slot it evaluates alone. -/
theorem execProcess_fault {s : State} {f : Fault} (h : execProcess s = .fault f) :
    f = .glyphOutsideFont ∧ ∃ i < s.size.toNat, ∃ c, decodeSlot s i = .ok c ∧ ¬ CommandInFont s.xmem c := by
  rcases execProcess_cases s with ⟨hlt, ⟨c, hd, hx⟩ | ⟨-, hx⟩⟩ | ⟨-, hx⟩ <;> rw [hx] at h
  · obtain ⟨hbad, hf⟩ := intoPOut_fault h
    exact ⟨hf, _, hlt, c, hd, not_commandInFont_of_badGlyph hd hbad⟩
  · cases h
  · cases h

/-- PROCESS is the one host command that can stop. -/
theorem hostCommand_fault {s : State} {b : Byte} {i : Instr} {f : Fault} (hc : decodeCode b = .ok i)
    (h : exec i s = .fault f) : i = .process := by
  rcases decodeCode_cases hc with ⟨-, rfl⟩ | ⟨-, rfl⟩ | ⟨-, rfl⟩ | ⟨-, rfl⟩
  · change execPush s = .fault f at h
    rcases execPush_cases s with ⟨-, hx⟩ | ⟨-, -, ⟨-, hx⟩ | ⟨-, -, hx⟩ | ⟨-, -, hx⟩⟩ <;> cases hx.symm.trans h
  · change execPop s = .fault f at h
    unfold execPop at h
    split at h <;> cases h
  · rfl
  · cases h

/-- The sweep's advance does not stop a step itself. -/
theorem thenAdvance_fault {x : Host.Outcome State Fault Refusal} {f : Fault} (h : thenAdvance x = .fault f) :
    x = .fault f := by
  cases x <;> cases h
  rfl

/-- What a step that runs an instruction or stops has fetched: the broken contract of 93 U5, a host command by its code, or the
valid slot the sweep is at; the state it runs in differs by the move taken off the list alone. -/
theorem fetch_origin (s : State) :
    (∃ t, fetch s = .quiet t) ∨ (∃ r, fetch s = .reject r) ∨
    (fetch s = .stop .xmemChangedDuringPass ∧ s.busy = true ∧ ∃ a b rest, s.env = .hostXmem a b :: rest) ∨
    (∃ b i e, decodeCode b = .ok i ∧ fetch s = .command i { s with env := e }) ∨
    ∃ c e, s.ci < s.size.toNat ∧ decodeSlot s s.ci = .ok c ∧ fetch s = .evaluate c { s with env := e } := by
  rcases fetch_cases s with ⟨u, hf, hu⟩ | ⟨reg, v, rest, -, hf⟩ | ⟨reg, rest, -, hf⟩ | ⟨a, b, rest, he, hb, hf⟩ |
    ⟨a, b, rest, -, -, hf⟩ | ⟨rest, -, -, hf⟩ | ⟨rest, -, hf⟩
  · obtain ⟨e, rfl⟩ : ∃ e, u = { s with env := e } := by
      obtain ⟨-, rfl⟩ | ⟨m, rest, -, rfl, -⟩ := hu
      · exact ⟨u.env, rfl⟩
      · exact ⟨rest, rfl⟩
    rw [hf]
    rcases engineMove_cases { s with env := e } with ⟨-, hm⟩ | ⟨-, -, hm⟩ | ⟨-, hlt, ⟨c, hd, hm⟩ | ⟨-, hm⟩⟩
    · exact .inl ⟨_, hm⟩
    · exact .inl ⟨_, hm⟩
    · exact .inr (.inr (.inr (.inr ⟨c, e, hlt, hd, hm⟩)))
    · exact .inr (.inl ⟨_, hm⟩)
  · rw [hf]
    rcases hostWrite_quiet_or_command reg v { s with env := rest } with hquiet | ⟨i, hc, hm⟩
    · exact .inl hquiet
    · exact .inr (.inr (.inr (.inl ⟨_, i, rest, hc, hm⟩)))
  · exact .inl ⟨_, hf⟩
  · exact .inr (.inr (.inl ⟨hf, hb, a, b, rest, he⟩))
  · exact .inl ⟨_, hf⟩
  · exact .inl ⟨_, hf⟩
  · exact .inl ⟨_, hf⟩

/-- Settles O55: HOST's move stops a step in a pass; of the instructions only PROCESS and the sweep's evaluation do, for a string. -/
theorem onlyHostsContractsFault : Obligations.OnlyHostsContractsFault := by
  intro s f _ hstep
  rw [step_eq] at hstep
  rcases fetch_origin s with ⟨t, hf⟩ | ⟨r, hf⟩ | ⟨hf, hcontract⟩ | ⟨b, i, e, hc, hf⟩ | ⟨c, e, hlt, hd, hf⟩ <;>
    rw [hf] at hstep
  · cases hstep
  · cases hstep
  · cases hstep
    exact .inl ⟨rfl, hcontract⟩
  · obtain rfl := hostCommand_fault hc hstep
    exact .inr (execProcess_fault (s := { s with env := e }) hstep)
  · obtain ⟨hglyph, hfont⟩ := exec_stored_fault hd (thenAdvance_fault hstep)
    exact .inr ⟨hglyph, s.ci, hlt, c, hd, hfont⟩

end Sys2Proof.Machine
end

section
/-! PROOFS. Stalls of SINK and the reset event (spec/70_reset_and_hazards.md R210, R211, R220). -/
namespace Sys2Proof.Machine

/-! ### A stall of SINK (70 R220) -/

/-- A stall that finds an emission due leaves it due. -/
theorem envMove_sinkStall_due {s : State} (hb : s.busy = true) (hdone : s.size.toNat ≤ s.ci) :
    envMove .sinkStall s = .quiet s := by
  simp [envMove, foldDone, hb, hdone]

/-- A stall that finds no emission due is ENGINE's turn (log entry 19). -/
theorem envMove_sinkStall_not_due {s : State} (h : s.busy = false ∨ s.ci < s.size.toNat) :
    envMove .sinkStall s = envMove .engine s := by
  have hdue : (s.busy && foldDone s) = false := by
    obtain hb | hlt := h
    · simp [hb]
    · simp [foldDone, hlt]
  simp [envMove, hdue]

/-- Settles O38: the two branches of a stall; where no emission is due, both steps fetch ENGINE's own move. -/
theorem stallHoldsTheEmission : Obligations.StallHoldsTheEmission := by
  intro s rest he
  refine ⟨fun hb hdone => step_of_quiet ((fetch_of_env he).trans (envMove_sinkStall_due hb hdone)), fun h => ?_⟩
  have hfetch : fetch s = fetch { s with env := .engine :: rest } :=
    (fetch_of_env he).trans (envMove_sinkStall_not_due (s := { s with env := rest }) h)
  rw [step_eq, step_eq, hfetch]

/-! ### The reset event (70 R210, R211) -/

/-- ENGINE idle and no move pending: the block waits for HOST. -/
theorem step_idle {s : State} (hb : s.busy = false) (he : s.env = []) : step s = .next s := by
  refine step_of_quiet ((fetch_engine (.inl ⟨he, rfl⟩)).trans ?_)
  simp [engineMove, hb]

/-- `STATUS` reads 0x00 with ENGINE idle and no rejection on record (10 R17, R28). -/
theorem statusByte_eq_zero {s : State} (hb : s.busy = false) (hr : s.rej = false) (hc : s.cause = .none) : statusByte s = 0 := by
  simp [statusByte, Cause.code, hb, hr, hc]

/-- Settles O39: the step is the reset event, whose fields are the definition's, and it leaves ENGINE idle. -/
theorem resetEventAbandonsThePass : Obligations.ResetEventAbandonsThePass := fun s rest he =>
  have hstep : step s = .next (resetEvent { s with env := rest }) := step_of_quiet (fetch_of_env he)
  ⟨_, hstep, rfl, rfl, rfl, statusByte_eq_zero rfl rfl rfl, rfl, rfl, rfl, rfl, step_idle rfl rfl⟩

end Sys2Proof.Machine
end
